-- ==== Sys2Proof/Word.lean ====
section
/-! DEFINITION. The word types of the core (spec/10_state.md R20, spec/30_encoding.md R71). -/

namespace Sys2Proof

/-- A general register, a byte of memory, the literal `kk` (10_state.md R21, 30_encoding.md R71). -/
abbrev Byte := BitVec 8

/-- An opcode, a stack entry, `I` and `pc` (10_state.md R20, 30_encoding.md R70). -/
abbrev Word := BitVec 16

/-- A 4-bit opcode field: a register index, a sub-opcode or the DRW height (30_encoding.md R71). -/
abbrev Nibble := BitVec 4

/-- The 12-bit field `nnn` (30_encoding.md R71). -/
abbrev Addr12 := BitVec 12

end Sys2Proof
end

