-- ==== Sys2Proof/WellFormed.lean ====
section
/-! DEFINITION. Which instruction terms have an encoding (spec/30_encoding.md R78). -/

namespace Sys2Proof

/-- The one operand rule the operand types do not carry: in `JP Vx, addr`, "x must equal addr[11:8], because both come
from the same bits" (30_encoding.md R78, R73). Every other term has an encoding. -/
def Instr.wellFormed : Instr → Bool
  | .jpVx x nnn => x == nnn.extractLsb' 8 4
  | .halt => true
  | .cls => true
  | .ret => true
  | .jp _ => true
  | .call _ => true
  | .seImm _ _ => true
  | .sneImm _ _ => true
  | .seReg _ _ => true
  | .ldImm _ _ => true
  | .addImm _ _ => true
  | .ldReg _ _ => true
  | .orReg _ _ => true
  | .andReg _ _ => true
  | .xorReg _ _ => true
  | .addReg _ _ => true
  | .sub _ _ => true
  | .shr _ _ => true
  | .subn _ _ => true
  | .shl _ _ => true
  | .sneReg _ _ => true
  | .ldI _ => true
  | .rnd _ _ => true
  | .drw _ _ _ => true

end Sys2Proof
end

