-- ==== Sys2Proof/Decode.lean ====
section
/-! DEFINITION. Fields, decoder and encoder of the 16-bit instruction word (spec/30_encoding.md R70 to R77). -/

namespace Sys2Proof

/-! ## Fields (R71) -/

/-- `c = op[15:12]`, the instruction class (R71). -/
def fieldC (op : Word) : Nibble := op.extractLsb' 12 4
/-- `x = op[11:8]` (R71). -/
def fieldX (op : Word) : Nibble := op.extractLsb' 8 4
/-- `y = op[7:4]` (R71). -/
def fieldY (op : Word) : Nibble := op.extractLsb' 4 4
/-- `d = op[3:0]`, also the DRW height `n` (R71). -/
def fieldD (op : Word) : Nibble := op.extractLsb' 0 4
/-- `nnn = op[11:0]` (R71). -/
def fieldNnn (op : Word) : Addr12 := op.extractLsb' 0 12
/-- `kk = op[7:0]` (R71). -/
def fieldKk (op : Word) : Byte := op.extractLsb' 0 8

/-! ## Decoding (R74, R75, R83) -/

/-- Class 0: only three full words are instructions (R75). -/
def decodeClass0 (op : Word) : Option Instr :=
  if op = 0x0000#16 then some .halt
  else if op = 0x00E0#16 then some .cls
  else if op = 0x00EE#16 then some .ret
  else none

/-- Class 8: the fourth nibble selects the operation (R75). -/
def decodeClass8 (x y d : Nibble) : Option Instr :=
  match d.toNat with
  | 0x0 => some (.ldReg x y)
  | 0x1 => some (.orReg x y)
  | 0x2 => some (.andReg x y)
  | 0x3 => some (.xorReg x y)
  | 0x4 => some (.addReg x y)
  | 0x5 => some (.sub x y)
  | 0x6 => some (.shr x y)
  | 0x7 => some (.subn x y)
  | 0xE => some (.shl x y)
  | _ => none

/-- The instruction a word is, by its nibbles (R74, R75); `none` for the illegal words (R76). -/
def decodeWord (op : Word) : Option Instr :=
  match (fieldC op).toNat with
  | 0x0 => decodeClass0 op
  | 0x1 => some (.jp (fieldNnn op))
  | 0x2 => some (.call (fieldNnn op))
  | 0x3 => some (.seImm (fieldX op) (fieldKk op))
  | 0x4 => some (.sneImm (fieldX op) (fieldKk op))
  | 0x5 => if fieldD op = 0#4 then some (.seReg (fieldX op) (fieldY op)) else none
  | 0x6 => some (.ldImm (fieldX op) (fieldKk op))
  | 0x7 => some (.addImm (fieldX op) (fieldKk op))
  | 0x8 => decodeClass8 (fieldX op) (fieldY op) (fieldD op)
  | 0x9 => if fieldD op = 0#4 then some (.sneReg (fieldX op) (fieldY op)) else none
  | 0xA => some (.ldI (fieldNnn op))
  | 0xB => some (.jpVx (fieldX op) (fieldNnn op))
  | 0xC => some (.rnd (fieldX op) (fieldKk op))
  | 0xD => some (.drw (fieldX op) (fieldY op) (fieldD op))
  | _ => none

/-- Why a byte sequence is no instruction. -/
inductive DecodeError where
  /-- The word matches no row of R74: the "unimplemented opcode" with its raw value (R76). -/
  | unimplementedOpcode (op : Word)
  /-- Fewer than the two bytes every instruction has (R70, R79). -/
  | truncated
deriving DecidableEq, Repr

/-- A word from its two bytes, the first in the high bits (20_memory.md R53). -/
def wordOfBytes (hi lo : Byte) : Word := hi ++ lo

/-- Decode the first instruction of a byte sequence and give the rest (R70, R79). -/
def decodeBytes : List Byte → Except DecodeError (Instr × List Byte)
  | hi :: lo :: rest =>
    match decodeWord (wordOfBytes hi lo) with
    | some i => .ok (i, rest)
    | none => .error (.unimplementedOpcode (wordOfBytes hi lo))
  | _ => .error .truncated

/-- The host's probe: the instruction the decoder reads from the word `w`, laid out as the core stores it, big-endian
(20_memory.md R53). Every instruction is one 16-bit word (R70), so `nbits` above 16 adds nothing. -/
def decodeTableWord (nbits w : Nat) : Option Instr :=
  let op := BitVec.ofNat 16 (w % 2 ^ nbits)
  match decodeBytes [op.extractLsb' 8 8, op.extractLsb' 0 8] with
  | .ok (i, _) => some i
  | .error _ => none

/-! ## Encoding, from the patterns of R74 -/

/-- A word from four nibbles, `c` the top one (R71). -/
def word4 (c x y d : Nibble) : Word := c ++ x ++ y ++ d
/-- A word `cxkk` (R71). -/
def wordXkk (c x : Nibble) (kk : Byte) : Word := c ++ x ++ kk
/-- A word `cnnn` (R71). -/
def wordNnn (c : Nibble) (nnn : Addr12) : Word := c ++ nnn

/-- The word of an instruction, row by row of R74. -/
def encode : Instr → Word
  | .halt => 0x0000#16
  | .cls => 0x00E0#16
  | .ret => 0x00EE#16
  | .jp nnn => wordNnn 0x1#4 nnn
  | .call nnn => wordNnn 0x2#4 nnn
  | .seImm x kk => wordXkk 0x3#4 x kk
  | .sneImm x kk => wordXkk 0x4#4 x kk
  | .seReg x y => word4 0x5#4 x y 0x0#4
  | .ldImm x kk => wordXkk 0x6#4 x kk
  | .addImm x kk => wordXkk 0x7#4 x kk
  | .ldReg x y => word4 0x8#4 x y 0x0#4
  | .orReg x y => word4 0x8#4 x y 0x1#4
  | .andReg x y => word4 0x8#4 x y 0x2#4
  | .xorReg x y => word4 0x8#4 x y 0x3#4
  | .addReg x y => word4 0x8#4 x y 0x4#4
  | .sub x y => word4 0x8#4 x y 0x5#4
  | .shr x y => word4 0x8#4 x y 0x6#4
  | .subn x y => word4 0x8#4 x y 0x7#4
  | .shl x y => word4 0x8#4 x y 0xE#4
  | .sneReg x y => word4 0x9#4 x y 0x0#4
  | .ldI nnn => wordNnn 0xA#4 nnn
  | .jpVx _ nnn => wordNnn 0xB#4 nnn
  | .rnd x kk => wordXkk 0xC#4 x kk
  | .drw x y n => word4 0xD#4 x y n

/-- The two bytes of an instruction as memory holds them, big-endian (20_memory.md R53). -/
def encodeBytes (i : Instr) : List Byte := [(encode i).extractLsb' 8 8, (encode i).extractLsb' 0 8]

/-! ## The opcode table of R74, as rows of match and mask -/

/-- One row: a word selects it "when it equals the row's match value in every bit the row's mask keeps" (R74). -/
structure OpcodeRow where
  mnemonic : String
  pattern : Word
  mask : Word
deriving DecidableEq, Repr

/-- The 24 rows of spec/opcode_table.json; the decoder above does not use them, the statements hold it against them. -/
def opcodeTable : List OpcodeRow :=
  [{ mnemonic := "HALT", pattern := 0x0000#16, mask := 0xFFFF#16 },
   { mnemonic := "CLS", pattern := 0x00E0#16, mask := 0xFFFF#16 },
   { mnemonic := "RET", pattern := 0x00EE#16, mask := 0xFFFF#16 },
   { mnemonic := "JP", pattern := 0x1000#16, mask := 0xF000#16 },
   { mnemonic := "CALL", pattern := 0x2000#16, mask := 0xF000#16 },
   { mnemonic := "SE_imm", pattern := 0x3000#16, mask := 0xF000#16 },
   { mnemonic := "SNE_imm", pattern := 0x4000#16, mask := 0xF000#16 },
   { mnemonic := "SE_reg", pattern := 0x5000#16, mask := 0xF00F#16 },
   { mnemonic := "LD_imm", pattern := 0x6000#16, mask := 0xF000#16 },
   { mnemonic := "ADD_imm", pattern := 0x7000#16, mask := 0xF000#16 },
   { mnemonic := "LD_reg", pattern := 0x8000#16, mask := 0xF00F#16 },
   { mnemonic := "OR", pattern := 0x8001#16, mask := 0xF00F#16 },
   { mnemonic := "AND", pattern := 0x8002#16, mask := 0xF00F#16 },
   { mnemonic := "XOR", pattern := 0x8003#16, mask := 0xF00F#16 },
   { mnemonic := "ADD_reg", pattern := 0x8004#16, mask := 0xF00F#16 },
   { mnemonic := "SUB", pattern := 0x8005#16, mask := 0xF00F#16 },
   { mnemonic := "SHR", pattern := 0x8006#16, mask := 0xF00F#16 },
   { mnemonic := "SUBN", pattern := 0x8007#16, mask := 0xF00F#16 },
   { mnemonic := "SHL", pattern := 0x800E#16, mask := 0xF00F#16 },
   { mnemonic := "SNE_reg", pattern := 0x9000#16, mask := 0xF00F#16 },
   { mnemonic := "LD_I", pattern := 0xA000#16, mask := 0xF000#16 },
   { mnemonic := "JP_Vx", pattern := 0xB000#16, mask := 0xF000#16 },
   { mnemonic := "RND", pattern := 0xC000#16, mask := 0xF000#16 },
   { mnemonic := "DRW", pattern := 0xD000#16, mask := 0xF000#16 }]

/-- A word selects a row (R74). -/
def rowSelects (r : OpcodeRow) (op : Word) : Bool := op &&& r.mask == r.pattern

end Sys2Proof
end

