-- ==== Sys2Proof/Config.lean ====
section
/-! DEFINITION. The parameters of the core (spec/00_scope.md R6) and the one free value. -/

namespace Sys2Proof.Config

/-- `MEM_SIZE` (00_scope.md R6): addresses 0x000 to 0xFFF. -/
abbrev memSize : Nat := 4096

/-- `LOAD_ADDR` (00_scope.md R6): the program start and the reset pc. -/
abbrev loadAddr : Nat := 0x200

/-- `MAX_IMAGE` (00_scope.md R6). -/
abbrev maxImage : Nat := 3584

/-- `STACK_DEPTH` (00_scope.md R6). -/
abbrev stackDepth : Nat := 16

/-- `DISP_W` (00_scope.md R6). -/
abbrev dispW : Nat := 64

/-- `DISP_H` (00_scope.md R6). -/
abbrev dispH : Nat := 32

/-- `RAND` (00_scope.md R6; 41_arithmetic.md R143; decision D9): the random-byte source supplied at construction,
as the byte handed to the n-th RND. DESIGN CHOICE (log 2): a FREE VALUE, it has no body and nothing constrains it. Safe. -/
opaque randByte : Nat → Byte

end Sys2Proof.Config
end

