-- ==== Sys2Proof/Machine/State.lean ====
section
/-! DEFINITION. The state of the core, its fault record, and the reset state (spec/10_state.md R20, R38). -/

namespace Sys2Proof.Machine

/-- The fault record (60_exceptions.md R205); `pc` is the fetch address A of the faulting step. -/
inductive FaultReason where
  /-- The fetched word matches no row (60_exceptions.md R201). -/
  | decodeFault (opcode pc : Word)
  /-- CALL with sp = 16 (60_exceptions.md R202). -/
  | stackOverflow (opcode pc : Word)
  /-- RET with sp = 0 (60_exceptions.md R203). -/
  | stackUnderflow (opcode pc : Word)
  /-- A fetch or sprite read outside memory; a fetch records no opcode (60_exceptions.md R204). -/
  | addressFault (pc addr : Word) (opcode : Option Word)
deriving DecidableEq, Repr

/-- The run status (10_state.md R33); the fault record is part of it (R34). -/
inductive RunStatus where
  | running
  | halted
  | faulted (reason : FaultReason)
deriving DecidableEq, Repr

/-- Memory as (address, byte) pairs; the canonical form is `Memory.wf` in Ops.lean. -/
abbrev Memory := List Host.Cell

/-- The framebuffer, 32 rows of 64 pixels (10_state.md R31); the storage order is unobservable (R32, log 6). -/
abbrev Framebuffer := Vector (Vector Bool 64) 32

/-- The state of the core (10_state.md R20). -/
structure State where
  /-- V0 to VF (10_state.md R21). -/
  V : Vector Byte 16
  /-- The index register (10_state.md R24). -/
  I : Word
  /-- The program counter (10_state.md R25). -/
  pc : Word
  /-- The 16 return addresses (10_state.md R29). -/
  stack : Vector Word 16
  /-- How many calls are pending, 0 to 16 (10_state.md R29, log 8). -/
  sp : Fin 17
  /-- The 4096 bytes of memory (20_memory.md R50). -/
  mem : Memory
  /-- The 64 by 32 pixels (10_state.md R31). -/
  FB : Framebuffer
  /-- The run status with its fault record (10_state.md R33, R34). -/
  status : RunStatus
  /-- The model's own field (log 3): how many RAND bytes have been consumed. -/
  randPos : Nat
deriving DecidableEq, Repr

/-- Why a step does not answer a state: the core has no step there. -/
inductive Fault where
  /-- Raised by `step` on a Halted machine: it "has no step" (30_encoding.md R80, log 1). Safe. -/
  | noStepHalted
  /-- Raised by `step` on a Faulted machine: it "has no step" (30_encoding.md R80, log 1). Safe. -/
  | noStepFaulted (reason : FaultReason)
deriving DecidableEq, Repr

/-- Why an instruction has no meaning in the model. No arm of `exec` uses it: every instruction is modelled. -/
inductive Refusal where
  /-- Raised by an arm of `exec` for an instruction without a meaning. Safe. -/
  | notModelled (mnemonic : String)
deriving DecidableEq, Repr

/-- The numeric code of a fault kind (60_exceptions.md R200, the spec's own labels, decision D14). -/
def FaultReason.code : FaultReason → Nat
  | .decodeFault _ _ => 1
  | .stackOverflow _ _ => 2
  | .stackUnderflow _ _ => 3
  | .addressFault _ _ _ => 4

/-- The `pc` field every fault record has (60_exceptions.md R205). -/
def FaultReason.pc : FaultReason → Word
  | .decodeFault _ pc => pc
  | .stackOverflow _ pc => pc
  | .stackUnderflow _ pc => pc
  | .addressFault pc _ _ => pc

/-- The opcode a fault record holds, none for a fetch fault (60_exceptions.md R205). -/
def FaultReason.opcode : FaultReason → Option Word
  | .decodeFault op _ => some op
  | .stackOverflow op _ => some op
  | .stackUnderflow op _ => some op
  | .addressFault _ _ op => op

/-- The machine right after construction (10_state.md R38, 70_reset_and_hazards.md R230, R231), with the all-zero
launch memory. DESIGN CHOICE (log 4): mem0 is a parameter, here all zeroes; DESIGN CHOICE (log 3): randPos is 0. -/
def State.reset : State where
  V := Vector.replicate 16 0x00#8
  I := 0x0000#16
  pc := 0x0200#16
  stack := Vector.replicate 16 0x0000#16
  sp := 0
  mem := []
  FB := Vector.replicate 32 (Vector.replicate 64 false)
  status := .running
  randPos := 0

end Sys2Proof.Machine
end

