-- ==== Sys2Proof/Machine/Ops.lean ====
section
/-! DEFINITION. The named operations over the state: registers, memory, stack, faults, fetch (spec/00_scope.md R9). -/

namespace Sys2Proof.Machine

/-! ## Plain updates, one per field -/

def State.setPc (s : State) (a : Word) : State := { s with pc := a }
def State.setI (s : State) (a : Word) : State := { s with I := a }
def State.setFB (s : State) (fb : Framebuffer) : State := { s with FB := fb }
def State.setMem (s : State) (m : Memory) : State := { s with mem := m }
def State.setStatus (s : State) (r : RunStatus) : State := { s with status := r }
def State.setStack (s : State) (st : Vector Word 16) (sp : Fin 17) : State := { s with stack := st, sp := sp }
def State.setRandPos (s : State) (n : Nat) : State := { s with randPos := n }

/-! ## Registers (10_state.md R21: none is hardwired, every index names one) -/

/-- The index of VF, the flag register (10_state.md R22). -/
def regF : Nibble := 0xF#4

/-- `V[r]` (00_scope.md R9). -/
def State.readV (s : State) (r : Nibble) : Byte := s.V[r.toNat]'r.isLt

/-- `V[r] <- b` (00_scope.md R9). -/
def State.writeV (s : State) (r : Nibble) (b : Byte) : State := { s with V := s.V.set r.toNat b r.isLt }

/-- The advance by one instruction word (30_encoding.md R82); a taken skip makes a second one (40_control_flow.md R110). -/
def State.advance (s : State) : State := s.setPc (s.pc + 2#16)

/-! ## Memory (20_memory.md R50, R51) -/

/-- What an unlisted address reads as: zero (20_memory.md R57, 70_reset_and_hazards.md R232; log 5). -/
def Memory.unlisted : Byte := 0x00#8

/-- The byte listed at an address, or the unlisted byte. -/
def Memory.byte : Memory → Nat → Byte
  | [], _ => Memory.unlisted
  | (k, b) :: m, a => if k = a then b else Memory.byte m a

/-- Put a byte at an address, keeping the list sorted and free of unlisted bytes. -/
def Memory.put : Memory → Nat → Byte → Memory
  | [], a, b => if b = Memory.unlisted then [] else [(a, b)]
  | (k, c) :: m, a, b =>
    if a < k then (if b = Memory.unlisted then (k, c) :: m else (a, b) :: (k, c) :: m)
    else if a = k then (if b = Memory.unlisted then m else (a, b) :: m)
    else (k, c) :: Memory.put m a b

/-- The canonical form: addresses strictly rising and inside the space, no entry equal to the unlisted byte. -/
abbrev Memory.wf (m : Memory) : Prop :=
  m.Pairwise (fun c d => c.1 < d.1) ∧ ∀ c ∈ m, c.1 < Config.memSize ∧ c.2 ≠ Memory.unlisted

/-- One byte: "no other address exists" beyond 0xFFF (20_memory.md R50). -/
def Memory.read (m : Memory) (a : Nat) : Option Byte :=
  if a < Config.memSize then some (m.byte a) else none

/-- What the LOADER does to one byte (70_reset_and_hazards.md R232); the core itself never writes (20_memory.md R55).
An address outside the space is left alone. -/
def Memory.write (m : Memory) (a : Nat) (b : Byte) : Memory :=
  if a < Config.memSize then m.put a b else m

/-- Bytes written at consecutive addresses, as the loader places an image (70_reset_and_hazards.md R232). -/
def Memory.writeBytes : Memory → Nat → List Byte → Memory
  | m, _, [] => m
  | m, a, b :: bs => Memory.writeBytes (m.write a b) (a + 1) bs

/-- The address an AddressFault records for the range `addr .. addr+n-1`: the lowest one outside memory
(20_memory.md R51, decision D22); none where the whole range is inside. -/
def outOfRange (addr n : Nat) : Option Nat :=
  if 0 < n ∧ Config.memSize < addr + n then some (max addr Config.memSize) else none

/-- `MemRead(addr, n)` as the list of its n bytes, or the faulting address (20_memory.md R51). -/
def memRead (m : Memory) (addr n : Nat) : Except Nat (List Byte) :=
  match outOfRange addr n with
  | some a => .error a
  | none => .ok ((List.range n).map fun r => m.byte (addr + r))

/-! ## The call stack (10_state.md R30) -/

/-- `push(v)`: none where the stack is full, and then no entry is written. -/
def push (v : Word) (s : State) : Option State :=
  if h : s.sp.val < Config.stackDepth then
    some (s.setStack (s.stack.set s.sp.val v h) ⟨s.sp.val + 1, Nat.succ_lt_succ h⟩)
  else none

/-- `pop()`: none where the stack is empty; the entry it reads stays in place (decision D17). -/
def pop (s : State) : Option (Word × State) :=
  if h : 0 < s.sp.val then
    have hb : s.sp.val - 1 < 16 := by have := s.sp.isLt; omega
    some (s.stack[s.sp.val - 1]'hb, s.setStack s.stack ⟨s.sp.val - 1, Nat.lt_succ_of_lt hb⟩)
  else none

/-! ## Faults and halt -/

/-- TAKING A FAULT, the one way all four are taken (60_exceptions.md R206): nothing of the step is committed, only
`status` becomes `Faulted(reason)`; `s` is the state before the step, so pc stays the fetch address A. There is no
handler, no saved register and no return from a fault (R206, R207). -/
def raise (r : FaultReason) (s : State) : State := s.setStatus (.faulted r)

/-- `halt()` (00_scope.md R9, 60_exceptions.md R209). -/
def halt (s : State) : State := s.setStatus .halted

/-! ## The RAND source (41_arithmetic.md R143) -/

/-- `draw_rand()`: the next byte of the source, and the state that has consumed it (log 2). -/
def drawRand (s : State) : Byte × State := (Config.randByte s.randPos, s.setRandPos (s.randPos + 1))

/-! ## Fetch and decode (30_encoding.md R80 to R83) -/

/-- Why a machine has no step: it is Halted or Faulted (30_encoding.md R80, decision D10, log 1). -/
def noStep (s : State) : Option Fault :=
  match s.status with
  | .running => none
  | .halted => some .noStepHalted
  | .faulted r => some (.noStepFaulted r)

/-- The fetch of R81: two consecutive bytes, big-endian, or an AddressFault with no opcode. -/
def fetch (s : State) : Except FaultReason Word :=
  match outOfRange s.pc.toNat 2 with
  | some a => .error (.addressFault s.pc (BitVec.ofNat 16 a) none)
  | none => .ok (wordOfBytes (s.mem.byte s.pc.toNat) (s.mem.byte (s.pc.toNat + 1)))

/-- Fetch, then decode; an illegal word is a DecodeFault with the word and the fetch address (R83, R76). -/
def fetchDecode (s : State) : Except FaultReason Instr :=
  match fetch s with
  | .error r => .error r
  | .ok op =>
    match decodeWord op with
    | some i => .ok i
    | none => .error (.decodeFault op s.pc)

/-- A word stored big-endian at `a` and `a + 1` (20_memory.md R53), as the loader would place it. -/
def Memory.storeWord (m : Memory) (a : Nat) (op : Word) : Memory :=
  m.writeBytes a [op.extractLsb' 8 8, op.extractLsb' 0 8]

/-- Where the next fetch reads: the pc, or the program start where the pc lies outside memory (log 12). -/
def fetchAddr (s : State) : Word :=
  if s.pc.toNat + 1 < Config.memSize then s.pc else BitVec.ofNat 16 Config.loadAddr

end Sys2Proof.Machine
end

