-- ==== Sys2Proof/Machine/Operands.lean ====
section
/-! DEFINITION. Operand assembly and the operand forms (spec/30_encoding.md R72, R73). -/

namespace Sys2Proof.Machine

/-- `zext_16(nnn)`: an address literal as a 16-bit value (R72). -/
def zextAddr (nnn : Addr12) : Word := nnn.setWidth 16

/-- `zext_16(V[x])`: a register's value as a 16-bit value (40_control_flow.md R105). -/
def zextByte (b : Byte) : Word := b.setWidth 16

/-- The target of Bnnn: `zext_16(nnn) + zext_16(V[x])`, a 16-bit sum, not truncated to 12 bits
(40_control_flow.md R105, decision D2). -/
def indexedTarget (nnn : Addr12) (b : Byte) : Word := zextAddr nnn + zextByte b

/-- `u8(v)`: a value reduced mod 256, applied wherever a register is written (00_scope.md R8). -/
def u8 (v : Nat) : Byte := BitVec.ofNat 8 v

/-- The start column: V[x] "reduced modulo screen width 64" (42_draw.md R162). -/
def startColumn (b : Byte) : Nat := b.toNat % Config.dispW

/-- The start row: V[y] "reduced modulo screen height 32" (42_draw.md R162, conflict C2). -/
def startRow (b : Byte) : Nat := b.toNat % Config.dispH

/-- The advance of every instruction, and a second one where the skip is taken (40_control_flow.md R106 to R110). -/
def skipIf (taken : Bool) (s : State) : State :=
  if taken then s.advance.advance else s.advance

/-- A result in V[x] and no flag (41_arithmetic.md R130, steps 1 to 3). -/
def writeResult (x : Nibble) (result : Byte) (s : State) : State := s.advance.writeV x result

/-- A result in V[x], then the flag in VF last (41_arithmetic.md R130, decision D6). -/
def writeResultFlag (x : Nibble) (result flag : Byte) (s : State) : State :=
  (s.advance.writeV x result).writeV regF flag

end Sys2Proof.Machine
end

