-- ==== Sys2Proof/Machine/Flags.lean ====
section
/-! DEFINITION. Results and flags of the arithmetic instructions (spec/41_arithmetic.md R144, spec/10_state.md R35). -/

namespace Sys2Proof.Machine

/-- A flag's value in VF: 1 or 0 (10_state.md R35). -/
def flagByte (b : Bool) : Byte := if b then 0x01#8 else 0x00#8

/-- `u8(a + b)` (41_arithmetic.md R132, R137). -/
def addResult (a b : Byte) : Byte := u8 (a.toNat + b.toNat)

/-- Carry: 1 if `a + b > 255` (41_arithmetic.md R137). -/
def carryFlag (a b : Byte) : Byte := flagByte (decide (a.toNat + b.toNat > 255))

/-- `u8(a - b + 256)` (41_arithmetic.md R138; R140 with the operands exchanged). -/
def subResult (a b : Byte) : Byte := u8 (a.toNat + 256 - b.toNat)

/-- No borrow: 1 if `a >= b` (41_arithmetic.md R138; R140 with the operands exchanged). -/
def noBorrowFlag (a b : Byte) : Byte := flagByte (decide (a.toNat ≥ b.toNat))

/-- `a >> 1` (41_arithmetic.md R139). -/
def shrResult (a : Byte) : Byte := u8 (a.toNat >>> 1)

/-- `a[0]`, the bit shifted out (41_arithmetic.md R139). -/
def shrFlag (a : Byte) : Byte := flagByte (a.getLsbD 0)

/-- `u8(a << 1)` (41_arithmetic.md R141). -/
def shlResult (a : Byte) : Byte := u8 (a.toNat <<< 1)

/-- `a[7]`, the bit shifted out (41_arithmetic.md R141). -/
def shlFlag (a : Byte) : Byte := flagByte (a.getLsbD 7)

/-- The collision flag (42_draw.md R166). -/
def collisionFlag (collided : Bool) : Byte := flagByte collided

end Sys2Proof.Machine
end

