-- ==== Sys2Proof/Machine/Arithmetic.lean ====
section
/-! DEFINITION. Meanings of the register and arithmetic instructions (spec/41_arithmetic.md). Sources are read from the
state before the step, results are written after the advance, the flag last (R130). -/

namespace Sys2Proof.Machine

/-- LD Vx, kk (R131). -/
def execLdImm (x : Nibble) (kk : Byte) (s : State) : Host.Outcome State Fault Refusal := .next (writeResult x kk s)

/-- ADD Vx, kk (R132): no flag. -/
def execAddImm (x : Nibble) (kk : Byte) (s : State) : Host.Outcome State Fault Refusal :=
  .next (writeResult x (addResult (s.readV x) kk) s)

/-- LD Vx, Vy (R133). -/
def execLdReg (x y : Nibble) (s : State) : Host.Outcome State Fault Refusal := .next (writeResult x (s.readV y) s)

/-- OR Vx, Vy (R134). -/
def execOrReg (x y : Nibble) (s : State) : Host.Outcome State Fault Refusal :=
  .next (writeResult x (s.readV x ||| s.readV y) s)

/-- AND Vx, Vy (R135). -/
def execAndReg (x y : Nibble) (s : State) : Host.Outcome State Fault Refusal :=
  .next (writeResult x (s.readV x &&& s.readV y) s)

/-- XOR Vx, Vy (R136). -/
def execXorReg (x y : Nibble) (s : State) : Host.Outcome State Fault Refusal :=
  .next (writeResult x (s.readV x ^^^ s.readV y) s)

/-- ADD Vx, Vy (R137). -/
def execAddReg (x y : Nibble) (s : State) : Host.Outcome State Fault Refusal :=
  .next (writeResultFlag x (addResult (s.readV x) (s.readV y)) (carryFlag (s.readV x) (s.readV y)) s)

/-- SUB Vx, Vy (R138). -/
def execSub (x y : Nibble) (s : State) : Host.Outcome State Fault Refusal :=
  .next (writeResultFlag x (subResult (s.readV x) (s.readV y)) (noBorrowFlag (s.readV x) (s.readV y)) s)

/-- SHR Vx (R139): V[y] is not read. -/
def execShr (x _y : Nibble) (s : State) : Host.Outcome State Fault Refusal :=
  .next (writeResultFlag x (shrResult (s.readV x)) (shrFlag (s.readV x)) s)

/-- SUBN Vx, Vy (R140). -/
def execSubn (x y : Nibble) (s : State) : Host.Outcome State Fault Refusal :=
  .next (writeResultFlag x (subResult (s.readV y) (s.readV x)) (noBorrowFlag (s.readV y) (s.readV x)) s)

/-- SHL Vx (R141): V[y] is not read. -/
def execShl (x _y : Nibble) (s : State) : Host.Outcome State Fault Refusal :=
  .next (writeResultFlag x (shlResult (s.readV x)) (shlFlag (s.readV x)) s)

/-- LD I, nnn (R142). -/
def execLdI (nnn : Addr12) (s : State) : Host.Outcome State Fault Refusal := .next (s.advance.setI (zextAddr nnn))

/-- RND Vx, kk (R143): one byte of RAND, a free value (log 2), masked by kk. -/
def execRnd (x : Nibble) (kk : Byte) (s : State) : Host.Outcome State Fault Refusal :=
  match drawRand s with
  | (r, t) => .next (writeResult x (r &&& kk) t)

end Sys2Proof.Machine
end

