-- ==== Sys2Proof/Machine/Display.lean ====
section
/-! DEFINITION. The framebuffer primitives, the framebuffer address decoder and the sprite loop (spec/42_draw.md). -/

namespace Sys2Proof.Machine

/-- `FB[px, py]` (42_draw.md R161). -/
def Framebuffer.pixel (fb : Framebuffer) (px : Fin 64) (py : Fin 32) : Bool := (fb[py.val])[px.val]

/-- `FB[px, py] <- b` (42_draw.md R161). -/
def Framebuffer.setPixel (fb : Framebuffer) (px : Fin 64) (py : Fin 32) (b : Bool) : Framebuffer :=
  fb.set py.val ((fb[py.val]).set px.val b)

/-- `toggle(px, py)`: the pixel's value before, and the framebuffer after (42_draw.md R161). -/
def Framebuffer.toggle (fb : Framebuffer) (px : Fin 64) (py : Fin 32) : Bool × Framebuffer :=
  (fb.pixel px py, fb.setPixel px py (!fb.pixel px py))

/-- Every pixel off, what `clear()` leaves (42_draw.md R160). -/
def Framebuffer.cleared : Framebuffer := Vector.replicate 32 (Vector.replicate 64 false)

/-- `clear()` on the machine: it writes nothing but the framebuffer (42_draw.md R160). -/
def clearDisplay (s : State) : State := s.setFB Framebuffer.cleared

/-- The framebuffer address decoder: the cell at column `cx` and row `cy`, none where it is clipped
(42_draw.md R163, R165, decision D4). -/
def fbDecode (cx cy : Nat) : Option (Fin 64 × Fin 32) :=
  if h : cx < 64 ∧ cy < 32 then some (⟨cx, h.1⟩, ⟨cy, h.2⟩) else none

/-- A framebuffer being drawn on, and whether a drawn pixel has been found on so far. -/
structure Canvas where
  fb : Framebuffer
  collided : Bool
deriving DecidableEq, Repr

/-- One sprite bit at column `cx`, row `cy` (42_draw.md R162, R166). -/
def drawBit (cx cy : Nat) (bit : Bool) (c : Canvas) : Canvas :=
  if bit then
    match fbDecode cx cy with
    | none => c
    | some (px, py) =>
      let (before, fb') := c.fb.toggle px py
      { fb := fb', collided := c.collided || before }
  else c

/-- One sprite row at row `cy`: bit `7 - j` at column `x0 + j`, for j = 0 to 7 (42_draw.md R162, R164). -/
def drawRow (x0 cy : Nat) (row : Byte) (c : Canvas) : Canvas :=
  (List.range 8).foldl (fun c j => drawBit (x0 + j) cy (row.getLsbD (7 - j)) c) c

/-- The sprite's rows from the top: row r at screen row `y0 + r` (42_draw.md R162, R164). -/
def drawRows (x0 : Nat) : Nat → List Byte → Canvas → Canvas
  | _, [], c => c
  | cy, row :: rows, c => drawRows x0 (cy + 1) rows (drawRow x0 cy row c)

/-- The whole blit; the collision starts at 0 (42_draw.md R162). -/
def blit (x0 y0 : Nat) (rows : List Byte) (fb : Framebuffer) : Canvas :=
  drawRows x0 y0 rows { fb := fb, collided := false }

end Sys2Proof.Machine
end

