-- ==== Sys2Proof/Machine/ControlFlow.lean ====
section
/-! DEFINITION. Meanings of the control-flow instructions (spec/40_control_flow.md). The state a meaning takes is the
state before the step, with pc = A; `advance` makes the pc A + 2 that the spec's pseudocode reads (log 7). -/

namespace Sys2Proof.Machine

/-- HALT (R100): the advance is kept, status becomes Halted. -/
def execHalt (s : State) : Host.Outcome State Fault Refusal := .next (halt s.advance)

/-- CLS (R101). -/
def execCls (s : State) : Host.Outcome State Fault Refusal := .next (clearDisplay s.advance)

/-- RET (R102): the popped entry, or StackUnderflow where sp = 0. -/
def execRet (s : State) : Host.Outcome State Fault Refusal :=
  match pop s with
  | some (target, t) => .next (t.setPc target)
  | none => .next (raise (.stackUnderflow (encode .ret) s.pc) s)

/-- JP nnn (R103). -/
def execJp (nnn : Addr12) (s : State) : Host.Outcome State Fault Refusal := .next (s.setPc (zextAddr nnn))

/-- CALL nnn (R104): pushes the advanced pc, or StackOverflow where sp = 16. -/
def execCall (nnn : Addr12) (s : State) : Host.Outcome State Fault Refusal :=
  match push s.advance.pc s with
  | some t => .next (t.setPc (zextAddr nnn))
  | none => .next (raise (.stackOverflow (encode (.call nnn)) s.pc) s)

/-- JP Vx, nnn (R105). -/
def execJpVx (x : Nibble) (nnn : Addr12) (s : State) : Host.Outcome State Fault Refusal :=
  .next (s.setPc (indexedTarget nnn (s.readV x)))

/-- SE Vx, kk (R106). -/
def execSeImm (x : Nibble) (kk : Byte) (s : State) : Host.Outcome State Fault Refusal :=
  .next (skipIf (s.readV x == kk) s)

/-- SNE Vx, kk (R107). -/
def execSneImm (x : Nibble) (kk : Byte) (s : State) : Host.Outcome State Fault Refusal :=
  .next (skipIf (s.readV x != kk) s)

/-- SE Vx, Vy (R108). -/
def execSeReg (x y : Nibble) (s : State) : Host.Outcome State Fault Refusal :=
  .next (skipIf (s.readV x == s.readV y) s)

/-- SNE Vx, Vy (R109). -/
def execSneReg (x y : Nibble) (s : State) : Host.Outcome State Fault Refusal :=
  .next (skipIf (s.readV x != s.readV y) s)

end Sys2Proof.Machine
end

