-- ==== Sys2Proof/Machine/Draw.lean ====
section
/-! DEFINITION. Meaning of the draw instruction (spec/42_draw.md). -/

namespace Sys2Proof.Machine

/-- DRW Vx, Vy, n (R162): the whole range I .. I+n-1 is read first (decision D7), V[x] and V[y] are read before VF is
written (decision D5), off-grid pixels are dropped (R165, decision D4), VF is the collision flag (R166). -/
def execDrw (x y n : Nibble) (s : State) : Host.Outcome State Fault Refusal :=
  match memRead s.mem s.I.toNat n.toNat with
  | .error a => .next (raise (.addressFault s.pc (BitVec.ofNat 16 a) (some (encode (.drw x y n)))) s)
  | .ok rows =>
    let c := blit (startColumn (s.readV x)) (startRow (s.readV y)) rows s.FB
    .next ((s.advance.setFB c.fb).writeV regF (collisionFlag c.collided))

end Sys2Proof.Machine
end

