-- ==== Sys2Proof/Machine/Step.lean ====
section
/-! DEFINITION. One step (spec/30_encoding.md R80 to R86) and the host's placing of one word. -/

namespace Sys2Proof.Machine

/-- One step (30_encoding.md R86): fetch, decode, execute; a fault of any of them is taken as a next state whose status
is Faulted (60_exceptions.md R206). A Halted or Faulted machine has no step (R80, log 1). -/
def step (s : State) : Host.Outcome State Fault Refusal :=
  match noStep s with
  | some f => .fault f
  | none =>
    match fetchDecode s with
    | .error r => .next (raise r s)
    | .ok i => exec i s

/-- `s` with the word `w` where the next step fetches it: at the pc (or at 0x200 where the pc lies outside memory), in a
Running machine (log 4, log 12). -/
def State.withFetchWord (s : State) (nbits w : Nat) : State :=
  ((s.setStatus .running).setPc (fetchAddr s)).setMem
    (s.mem.storeWord (fetchAddr s).toNat (BitVec.ofNat 16 (w % 2 ^ nbits)))

end Sys2Proof.Machine
end

