-- ==== Sys2Proof/Machine/Interface.lean ====
section
/-! DEFINITION. The block's interface: construction, the loader's boundary, step status, run, pixel, clear
(spec/00_scope.md R10 to R14, spec/70_reset_and_hazards.md R230 to R238). -/

namespace Sys2Proof.Machine

/-- Construction from a launch memory `mem0` (00_scope.md R10, 70_reset_and_hazards.md R230); RAND is the free constant
of Config.lean, none of whose bytes has been consumed. -/
def construct (mem0 : Memory) : State := State.reset.setMem mem0

/-- Why an image is not loaded (70_reset_and_hazards.md R233). -/
inductive LoadError where
  | emptyImage
  | imageTooLong
deriving DecidableEq, Repr

/-- The launch memory of a program image: zeroes with the image at 0x200 (70_reset_and_hazards.md R232), or a load-time
error (R233). -/
def loadImage (img : List Byte) : Except LoadError Memory :=
  if img.length = 0 then .error .emptyImage
  else if Config.maxImage < img.length then .error .imageTooLong
  else .ok (Memory.writeBytes [] Config.loadAddr img)

/-- A launch: load, then construct (70_reset_and_hazards.md R234). No machine exists for a malformed image
(60_exceptions.md R210). -/
def launch (img : List Byte) : Except LoadError State :=
  match loadImage img with
  | .ok mem0 => .ok (construct mem0)
  | .error e => .error e

/-- The state after `step()`; a terminal machine keeps its state (decision D10, log 1). -/
def afterStep (s : State) : State :=
  match step s with
  | .next t => t
  | .fault _ => s
  | .refused _ => s

/-- The run status `step()` returns (00_scope.md R11). -/
def stepStatus (s : State) : RunStatus := (afterStep s).status

/-- `run()` under a budget of steps (00_scope.md R12, 70_reset_and_hazards.md R235, R238): step while Running. With the
budget used up the machine is still Running (log 13). -/
def run : Nat → State → State
  | 0, s => s
  | fuel + 1, s =>
    match s.status with
    | .running => run fuel (afterStep s)
    | .halted => s
    | .faulted _ => s

/-- The pixel read port, defined on the grid only (00_scope.md R13). -/
def pixel (s : State) (x : Fin 64) (y : Fin 32) : Bool := s.FB.pixel x y

/-- The external clear between steps (00_scope.md R14). -/
def externalClear (s : State) : State := clearDisplay s

end Sys2Proof.Machine
end

