-- ==== Sys2Proof/Safety.lean ====
section
/-! DEFINITION. What counts as a safe state and a safe run, and the relations the statements are written in. -/

namespace Sys2Proof

open Sys2Proof.Machine

/-- The invariant of the core: memory is in canonical form, I never exceeds 0xFFF (10_state.md R24), pc never exceeds
0x10FE (R28), and no stack entry, pending or stale, exceeds 0x1000 (40_control_flow.md R102). -/
structure Machine.State.Inv (s : State) : Prop where
  mem_wf : s.mem.wf
  I_le : s.I.toNat ≤ 0xFFF
  pc_le : s.pc.toNat ≤ 0x10FE
  stack_le : ∀ k : Fin 16, (s.stack[k.val]).toNat ≤ 0x1000

/-- The states a run from `s` goes through. -/
inductive Reaches (s : State) : State → Prop where
  | refl : Reaches s s
  | step {t u : State} : Reaches s t → Machine.step t = .next u → Reaches s u

/-- A run from `s` never ends in a fault (70_reset_and_hazards.md R240 names the duty on software). -/
def SafeFrom (s : State) : Prop := ∀ t, Reaches s t → ∀ r, t.status ≠ .faulted r

/-- Two states that agree on everything but the stale stack entries `stack[sp..15]` (10_state.md R37). -/
structure AgreeButStale (s t : State) : Prop where
  V : s.V = t.V
  I : s.I = t.I
  pc : s.pc = t.pc
  sp : s.sp = t.sp
  mem : s.mem = t.mem
  FB : s.FB = t.FB
  status : s.status = t.status
  randPos : s.randPos = t.randPos
  pending : ∀ k : Fin 16, k.val < s.sp.val → s.stack[k.val] = t.stack[k.val]

/-- Two states that agree on everything but the general registers. -/
def AgreeButV (s t : State) : Prop := { s with V := t.V } = t

/-- The word at the pc, the byte at the pc in the high bits (20_memory.md R53). -/
def opAt (s : State) : Word := s.mem.byte s.pc.toNat ++ s.mem.byte (s.pc.toNat + 1)

/-- The instruction is a skip whose condition holds (40_control_flow.md R106 to R109). -/
def skipTaken (i : Instr) (s : State) : Bool :=
  match i with
  | .seImm x kk => s.readV x == kk
  | .sneImm x kk => !(s.readV x == kk)
  | .seReg x y => s.readV x == s.readV y
  | .sneReg x y => !(s.readV x == s.readV y)
  | .halt => false
  | .cls => false
  | .ret => false
  | .jp _ => false
  | .call _ => false
  | .ldImm _ _ => false
  | .addImm _ _ => false
  | .ldReg _ _ => false
  | .orReg _ _ => false
  | .andReg _ _ => false
  | .xorReg _ _ => false
  | .addReg _ _ => false
  | .sub _ _ => false
  | .shr _ _ => false
  | .subn _ _ => false
  | .shl _ _ => false
  | .ldI _ => false
  | .jpVx _ _ => false
  | .rnd _ _ => false
  | .drw _ _ _ => false

/-- The pc after an instruction that completes (10_state.md R26), A being the pc before it. -/
def pcAfter (i : Instr) (s : State) : Word :=
  match i with
  | .jp nnn => 0#4 ++ nnn
  | .call nnn => 0#4 ++ nnn
  | .jpVx _ nnn => BitVec.ofNat 16 (nnn.toNat + (s.readV (nnn.extractLsb' 8 4)).toNat)
  | .ret => if h : s.sp.val = 0 then s.pc else s.stack[s.sp.val - 1]'(by have := s.sp.isLt; omega)
  | .seImm x kk => if s.readV x = kk then s.pc + 4#16 else s.pc + 2#16
  | .sneImm x kk => if s.readV x ≠ kk then s.pc + 4#16 else s.pc + 2#16
  | .seReg x y => if s.readV x = s.readV y then s.pc + 4#16 else s.pc + 2#16
  | .sneReg x y => if s.readV x ≠ s.readV y then s.pc + 4#16 else s.pc + 2#16
  | .halt => s.pc + 2#16
  | .cls => s.pc + 2#16
  | .ldImm _ _ => s.pc + 2#16
  | .addImm _ _ => s.pc + 2#16
  | .ldReg _ _ => s.pc + 2#16
  | .orReg _ _ => s.pc + 2#16
  | .andReg _ _ => s.pc + 2#16
  | .xorReg _ _ => s.pc + 2#16
  | .addReg _ _ => s.pc + 2#16
  | .sub _ _ => s.pc + 2#16
  | .shr _ _ => s.pc + 2#16
  | .subn _ _ => s.pc + 2#16
  | .shl _ _ => s.pc + 2#16
  | .ldI _ => s.pc + 2#16
  | .rnd _ _ => s.pc + 2#16
  | .drw _ _ _ => s.pc + 2#16

/-- The instructions of spec/41_arithmetic.md. -/
def isArithmetic : Instr → Bool
  | .ldImm _ _ => true
  | .addImm _ _ => true
  | .ldReg _ _ => true
  | .orReg _ _ => true
  | .andReg _ _ => true
  | .xorReg _ _ => true
  | .addReg _ _ => true
  | .sub _ _ => true
  | .shr _ _ => true
  | .subn _ _ => true
  | .shl _ _ => true
  | .ldI _ => true
  | .rnd _ _ => true
  | .halt => false
  | .cls => false
  | .ret => false
  | .jp _ => false
  | .call _ => false
  | .seImm _ _ => false
  | .sneImm _ _ => false
  | .seReg _ _ => false
  | .sneReg _ _ => false
  | .jpVx _ _ => false
  | .drw _ _ _ => false

/-- CALL to each target in turn, from a state, as long as each answers a state. -/
def callAll : List Addr12 → State → Host.Outcome State Fault Refusal
  | [], s => .next s
  | nnn :: rest, s =>
    match exec (.call nnn) s with
    | .next t => callAll rest t
    | .fault f => .fault f
    | .refused r => .refused r

/-- The general registers an instruction writes (10_state.md R23). -/
def regsWritten : Instr → List Nibble
  | .ldImm x _ => [x]
  | .addImm x _ => [x]
  | .ldReg x _ => [x]
  | .orReg x _ => [x]
  | .andReg x _ => [x]
  | .xorReg x _ => [x]
  | .addReg x _ => [x, 0xF#4]
  | .sub x _ => [x, 0xF#4]
  | .shr x _ => [x, 0xF#4]
  | .subn x _ => [x, 0xF#4]
  | .shl x _ => [x, 0xF#4]
  | .rnd x _ => [x]
  | .drw _ _ _ => [0xF#4]
  | .halt => []
  | .cls => []
  | .ret => []
  | .jp _ => []
  | .call _ => []
  | .seImm _ _ => []
  | .sneImm _ _ => []
  | .seReg _ _ => []
  | .sneReg _ _ => []
  | .ldI _ => []
  | .jpVx _ _ => []

/-- The general registers an instruction reads (10_state.md R23). -/
def regsRead : Instr → List Nibble
  | .seImm x _ => [x]
  | .sneImm x _ => [x]
  | .seReg x y => [x, y]
  | .sneReg x y => [x, y]
  | .addImm x _ => [x]
  | .ldReg _ y => [y]
  | .orReg x y => [x, y]
  | .andReg x y => [x, y]
  | .xorReg x y => [x, y]
  | .addReg x y => [x, y]
  | .sub x y => [x, y]
  | .subn x y => [x, y]
  | .shr x _ => [x]
  | .shl x _ => [x]
  | .jpVx _ nnn => [nnn.extractLsb' 8 4]
  | .drw x y _ => [x, y]
  | .ldImm _ _ => []
  | .rnd _ _ => []
  | .halt => []
  | .cls => []
  | .ret => []
  | .jp _ => []
  | .call _ => []
  | .ldI _ => []

/-- The sprite bit a DRW with start column `x0`, start row `y0`, height `n` and index `i` puts on pixel (px, py):
bit `7 - (px - x0)` of the byte at `i + (py - y0)` where the pixel lies under the sprite, else off
(42_draw.md R164). Pixels off the grid have no (px, py): they are clipped (R165). -/
def spriteBit (m : Memory) (i x0 y0 n : Nat) (px : Fin 64) (py : Fin 32) : Bool :=
  decide (x0 ≤ px.val ∧ px.val < x0 + 8 ∧ y0 ≤ py.val ∧ py.val < y0 + n) &&
    (m.byte (i + (py.val - y0))).getLsbD (7 - (px.val - x0))

end Sys2Proof
end

