-- ==== Sys2Proof/Certificates/Slice0/Obligations.lean ====
section
/-! DEFINITION. The statements for the provers. Where a docstring names a decision D<n>, the clause rests on the spec's
own choice recorded in spec/92_eei_decisions.md, not on the source. -/

open Sys2Proof Sys2Proof.Machine

/-! ## Encoding -/

/-- Decode after encode, on words and on bytes, every operand at every value (from 30_encoding.md R71 and R74). -/
def Obligations.DecodeOfEncodeIsTheInstruction : Prop :=
  ∀ i : Instr, i.wellFormed = true →
    decodeWord (encode i) = some i ∧ ∀ rest : List Byte, decodeBytes (encodeBytes i ++ rest) = .ok (i, rest)

/-- Encode after decode: no bit of a legal word is dropped, and what is decoded is well-formed. -/
def Obligations.EncodeOfDecodeIsTheWord : Prop :=
  ∀ (op : Word) (i : Instr), decodeWord op = some i → i.wellFormed = true ∧ encode i = op

/-- 30_encoding.md R74: the decoder gives a word the instruction of the row it selects, and none where it selects none. -/
def Obligations.DecoderFollowsTheOpcodeMap : Prop :=
  ∀ op : Word,
    (∀ row ∈ opcodeTable, op &&& row.mask = row.pattern →
      ∃ i, decodeWord op = some i ∧ i.mnemonic = row.mnemonic) ∧
    ((∀ row ∈ opcodeTable, op &&& row.mask ≠ row.pattern) → decodeWord op = none)

/-- "No two rows match the same word" (30_encoding.md R74, marked derived there). -/
def Obligations.NoWordSelectsTwoRows : Prop :=
  ∀ (op : Word), ∀ row ∈ opcodeTable, ∀ row' ∈ opcodeTable,
    op &&& row.mask = row.pattern → op &&& row'.mask = row'.pattern → row = row'

/-- The illegal space, class by class, in numbers (30_encoding.md R75 and R76, decision D8). -/
def Obligations.IllegalWordsByClass : Prop :=
  ∀ op : Word, decodeWord op = none ↔
    (op.toNat < 0x1000 ∧ op.toNat ≠ 0x0000 ∧ op.toNat ≠ 0x00E0 ∧ op.toNat ≠ 0x00EE) ∨
    (op.toNat / 0x1000 = 0x5 ∧ op.toNat % 16 ≠ 0) ∨
    (op.toNat / 0x1000 = 0x8 ∧ 8 ≤ op.toNat % 16 ∧ op.toNat % 16 ≠ 0xE) ∨
    (op.toNat / 0x1000 = 0x9 ∧ op.toNat % 16 ≠ 0) ∨
    0xE000 ≤ op.toNat

/-- 30_encoding.md R71: the six fields, and the operands of every decoded instruction as those bits of the word. -/
def Obligations.DecodedOperandsAreTheFields : Prop :=
  ∀ op : Word,
    ((fieldC op).toNat = op.toNat / 4096 ∧ (fieldX op).toNat = op.toNat / 256 % 16 ∧
      (fieldY op).toNat = op.toNat / 16 % 16 ∧ (fieldD op).toNat = op.toNat % 16 ∧
      (fieldNnn op).toNat = op.toNat % 4096 ∧ (fieldKk op).toNat = op.toNat % 256) ∧
    ∀ i, decodeWord op = some i →
      match i with
      | .jp nnn => nnn = fieldNnn op
      | .call nnn => nnn = fieldNnn op
      | .ldI nnn => nnn = fieldNnn op
      | .jpVx x nnn => x = fieldX op ∧ nnn = fieldNnn op
      | .seImm x kk => x = fieldX op ∧ kk = fieldKk op
      | .sneImm x kk => x = fieldX op ∧ kk = fieldKk op
      | .ldImm x kk => x = fieldX op ∧ kk = fieldKk op
      | .addImm x kk => x = fieldX op ∧ kk = fieldKk op
      | .rnd x kk => x = fieldX op ∧ kk = fieldKk op
      | .seReg x y => x = fieldX op ∧ y = fieldY op
      | .sneReg x y => x = fieldX op ∧ y = fieldY op
      | .ldReg x y => x = fieldX op ∧ y = fieldY op
      | .orReg x y => x = fieldX op ∧ y = fieldY op
      | .andReg x y => x = fieldX op ∧ y = fieldY op
      | .xorReg x y => x = fieldX op ∧ y = fieldY op
      | .addReg x y => x = fieldX op ∧ y = fieldY op
      | .sub x y => x = fieldX op ∧ y = fieldY op
      | .shr x y => x = fieldX op ∧ y = fieldY op
      | .subn x y => x = fieldX op ∧ y = fieldY op
      | .shl x y => x = fieldX op ∧ y = fieldY op
      | .drw x y n => x = fieldX op ∧ y = fieldY op ∧ n = fieldD op
      | .halt => op = 0x0000#16
      | .cls => op = 0x00E0#16
      | .ret => op = 0x00EE#16

/-- Words written out from the spec's encodings, one or more of each family, and some illegal ones. -/
def Obligations.SampleWordsDecode : Prop :=
  decodeWord 0x0000#16 = some .halt ∧ decodeWord 0x00E0#16 = some .cls ∧ decodeWord 0x00EE#16 = some .ret ∧
  decodeWord 0x1ABC#16 = some (.jp 0xABC#12) ∧ decodeWord 0x2300#16 = some (.call 0x300#12) ∧
  decodeWord 0xB30A#16 = some (.jpVx 3#4 0x30A#12) ∧ decodeWord 0x3005#16 = some (.seImm 0#4 0x05#8) ∧
  decodeWord 0x9120#16 = some (.sneReg 1#4 2#4) ∧ decodeWord 0x8014#16 = some (.addReg 0#4 1#4) ∧
  decodeWord 0x800E#16 = some (.shl 0#4 0#4) ∧ decodeWord 0xA123#16 = some (.ldI 0x123#12) ∧
  decodeWord 0xC30F#16 = some (.rnd 3#4 0x0F#8) ∧ decodeWord 0xD012#16 = some (.drw 0#4 1#4 2#4) ∧
  decodeWord 0xF00A#16 = none ∧ decodeWord 0x5121#16 = none ∧ decodeWord 0x8128#16 = none ∧
  decodeWord 0x0123#16 = none

/-! ## The step -/

/-- A Running machine with a legal word at the pc runs that instruction: the step is exec at that very state, and
exec makes the advance itself (30_encoding.md R80 to R86, log 7). -/
def Obligations.StepRunsTheDecodedInstruction : Prop :=
  ∀ (s : State) (i : Instr) (hi lo : Byte), s.status = .running →
    s.mem.read s.pc.toNat = some hi → s.mem.read (s.pc.toNat + 1) = some lo → decodeWord (hi ++ lo) = some i →
    step s = exec i s

/-- The host's placing of one word: the very next step runs it, in a Running machine whose registers, stack, pixels and
other bytes are those of `s` (log 12). -/
def Obligations.StepRunsThePlacedWord : Prop :=
  ∀ (s : State) (w : Nat) (i : Instr), s.mem.wf → decodeTableWord 16 w = some i →
    step (s.withFetchWord 16 w) = exec i (s.withFetchWord 16 w) ∧
    s.withFetchWord 16 w =
      { s with pc := (s.withFetchWord 16 w).pc, mem := (s.withFetchWord 16 w).mem, status := .running } ∧
    (s.pc.toNat ≤ 4094 → (s.withFetchWord 16 w).pc = s.pc) ∧
    ∀ a, a ≠ (s.withFetchWord 16 w).pc.toNat → a ≠ (s.withFetchWord 16 w).pc.toNat + 1 →
      (s.withFetchWord 16 w).mem.read a = s.mem.read a

/-- The fetch reads two consecutive bytes big-endian, and outside memory the step raises AddressFault with pc = A,
address max(A, 4096), the spec's decision D22, and no opcode (30_encoding.md R81). -/
def Obligations.FetchReadsTwoBytesOrFaults : Prop :=
  (∀ (s : State) (hi lo : Byte), s.mem.read s.pc.toNat = some hi → s.mem.read (s.pc.toNat + 1) = some lo →
    fetch s = .ok (hi ++ lo)) ∧
  (∀ s : State, s.status = .running → s.pc.toNat + 1 ≥ 4096 →
    ∃ t, step s = .next t ∧ t.status = .faulted (.addressFault s.pc (BitVec.ofNat 16 (max s.pc.toNat 4096)) none))

/-- 60_exceptions.md R201: a fetched word that matches no row raises DecodeFault with the word and the fetch address. -/
def Obligations.UnmatchedWordRaisesDecodeFault : Prop :=
  ∀ (s : State) (hi lo : Byte), s.status = .running →
    s.mem.read s.pc.toNat = some hi → s.mem.read (s.pc.toNat + 1) = some lo →
    (∀ row ∈ opcodeTable, (hi ++ lo : Word) &&& row.mask ≠ row.pattern) →
    ∃ t, step s = .next t ∧ t.status = .faulted (.decodeFault (hi ++ lo) s.pc)

/-- A step exists exactly from Running (30_encoding.md R80 and 60_exceptions.md R207, decision D10); elsewhere the step
is the model's own stop that names the status (log 1). No step is ever refused. -/
def Obligations.StepExistsExactlyFromRunning : Prop :=
  ∀ s : State,
    ((∃ t, step s = .next t) ↔ s.status = .running) ∧
    (s.status = .halted → step s = .fault .noStepHalted) ∧
    (∀ r, s.status = .faulted r → step s = .fault (.noStepFaulted r)) ∧
    ∀ k, step s ≠ .refused k

/-- A faulting step changes nothing but the status: pc stays A, VF is not cleared (60_exceptions.md R206, decision D1). -/
def Obligations.FaultingStepCommitsNothing : Prop :=
  ∀ (s t : State) (r : FaultReason), step s = .next t → t.status = .faulted r →
    t = { s with status := .faulted r }

/-- Exactly when a step of a Running machine faults, with which record, in the order of the cycle: fetch AddressFault,
DecodeFault, then the instruction's own (60_exceptions.md R200 to R205 and R208, decisions D14, D22, D23). -/
def Obligations.StepFaultsExactlyWhen : Prop :=
  ∀ (s : State) (r : FaultReason), s.status = .running →
    ((∃ t, step s = .next t ∧ t.status = .faulted r) ↔
      (4094 < s.pc.toNat ∧ r = .addressFault s.pc (BitVec.ofNat 16 (max s.pc.toNat 4096)) none) ∨
      (s.pc.toNat ≤ 4094 ∧ decodeWord (opAt s) = none ∧ r = .decodeFault (opAt s) s.pc) ∨
      (s.pc.toNat ≤ 4094 ∧ s.sp.val = 16 ∧ (∃ nnn, decodeWord (opAt s) = some (.call nnn)) ∧
        r = .stackOverflow (opAt s) s.pc) ∨
      (s.pc.toNat ≤ 4094 ∧ s.sp.val = 0 ∧ decodeWord (opAt s) = some .ret ∧ r = .stackUnderflow (opAt s) s.pc) ∨
      (s.pc.toNat ≤ 4094 ∧
        (∃ x y n, decodeWord (opAt s) = some (.drw x y n) ∧ 0 < n.toNat ∧ 4096 < s.I.toNat + n.toNat) ∧
        r = .addressFault s.pc (BitVec.ofNat 16 (max s.I.toNat 4096)) (some (opAt s))))

/-! ## Control flow -/

/-- HALT keeps the advance and stops successfully; nothing else changes (40_control_flow.md R100, decision D18). -/
def Obligations.HaltAdvancesAndHalts : Prop :=
  decodeWord 0x0000#16 = some .halt ∧
  ∀ s : State, exec .halt s = .next { s with pc := s.pc + 2#16, status := .halted }

/-- 40_control_flow.md R101: every pixel off, nothing else but the pc. -/
def Obligations.ClsClearsEveryPixel : Prop :=
  decodeWord 0x00E0#16 = some .cls ∧
  ∀ s : State, ∃ fb : Framebuffer, exec .cls s = .next { s with pc := s.pc + 2#16, FB := fb } ∧
    ∀ px py, fb.pixel px py = false

/-- RET pops, the entries staying in place by decision D17, or raises StackUnderflow with the whole state unchanged
(40_control_flow.md R102, 60_exceptions.md R203, decisions D1 and D14). -/
def Obligations.RetPopsOrUnderflows : Prop :=
  decodeWord 0x00EE#16 = some .ret ∧
  (∀ (s : State) (k : Fin 16), s.sp = k.succ →
    exec .ret s = .next { s with sp := k.castSucc, pc := s.stack[k.val] }) ∧
  (∀ s : State, s.sp = 0 → exec .ret s = .next { s with status := .faulted (.stackUnderflow 0x00EE#16 s.pc) })

/-- 40_control_flow.md R103. -/
def Obligations.JpSetsPc : Prop :=
  ∀ (nnn : Addr12),
    decodeWord (0x1#4 ++ nnn) = some (.jp nnn) ∧
    ∀ s : State, exec (.jp nnn) s = .next { s with pc := 0#4 ++ nnn }

/-- CALL pushes A + 2, or raises StackOverflow with nothing pushed and pc = A (40_control_flow.md R104, decisions D1,
D14 and D17). -/
def Obligations.CallPushesOrOverflows : Prop :=
  ∀ (nnn : Addr12),
    decodeWord (0x2#4 ++ nnn) = some (.call nnn) ∧
    (∀ (s : State) (k : Fin 16), s.sp = k.castSucc →
      exec (.call nnn) s =
        .next { s with stack := s.stack.set k.val (s.pc + 2#16), sp := k.succ, pc := 0#4 ++ nnn }) ∧
    (∀ s : State, s.sp = 16 →
      exec (.call nnn) s = .next { s with status := .faulted (.stackOverflow (0x2#4 ++ nnn) s.pc) })

/-- Bnnn jumps to nnn + V[x], x the top nibble of nnn, the sum not truncated to 12 bits (40_control_flow.md R105,
decision D2). -/
def Obligations.JpVxAddsTheRegister : Prop :=
  ∀ (x : Nibble) (kk : Byte),
    decodeWord (0xB#4 ++ x ++ kk) = some (.jpVx x (x ++ kk)) ∧
    ∀ s : State, ∃ t, exec (.jpVx x (x ++ kk)) s = .next t ∧ t = { s with pc := t.pc } ∧
      t.pc.toNat = (x ++ kk : Addr12).toNat + (s.readV x).toNat

/-- 40_control_flow.md R106 and R107. -/
def Obligations.ImmediateSkips : Prop :=
  ∀ (x : Nibble) (kk : Byte),
    decodeWord (0x3#4 ++ x ++ kk) = some (.seImm x kk) ∧
    decodeWord (0x4#4 ++ x ++ kk) = some (.sneImm x kk) ∧
    ∀ s : State,
      exec (.seImm x kk) s =
        .next { s with pc := if s.readV x = kk then s.pc + 2#16 + 2#16 else s.pc + 2#16 } ∧
      exec (.sneImm x kk) s =
        .next { s with pc := if s.readV x ≠ kk then s.pc + 2#16 + 2#16 else s.pc + 2#16 }

/-- The register skips, and a fourth nibble other than 0 is neither of them (40_control_flow.md R108 and R109,
decision D8). -/
def Obligations.RegisterSkips : Prop :=
  ∀ (x y d : Nibble),
    decodeWord (0x5#4 ++ x ++ y ++ d) = (if d = 0#4 then some (.seReg x y) else none) ∧
    decodeWord (0x9#4 ++ x ++ y ++ d) = (if d = 0#4 then some (.sneReg x y) else none) ∧
    ∀ s : State,
      exec (.seReg x y) s =
        .next { s with pc := if s.readV x = s.readV y then s.pc + 2#16 + 2#16 else s.pc + 2#16 } ∧
      exec (.sneReg x y) s =
        .next { s with pc := if s.readV x ≠ s.readV y then s.pc + 2#16 + 2#16 else s.pc + 2#16 }

/-- A taken skip adds 2 to the advanced pc whatever the word at A + 2 holds; at A = 0xFFE the step after it faults at the
fetch, with the address of decision D22 (40_control_flow.md R110). -/
def Obligations.TakenSkipIgnoresTheNextWord : Prop :=
  ∀ (s : State) (i : Instr) (m : Memory), s.status = .running → s.pc.toNat ≤ 4094 →
    decodeWord (opAt s) = some i → skipTaken i s = true →
    (∀ a, a ≠ s.pc.toNat + 2 → a ≠ s.pc.toNat + 3 → m.byte a = s.mem.byte a) →
    step { s with mem := m } = .next { s with mem := m, pc := s.pc + 4#16 } ∧
    (s.pc = 0xFFE#16 →
      ∃ u, step { s with mem := m, pc := s.pc + 4#16 } = .next u ∧
        u.status = .faulted (.addressFault 0x1002#16 0x1002#16 none))

/-- CALL at A and RET as the first instruction at nnn: pc = A + 2, sp as before, everything else unchanged except
stack[sp] = A + 2 (40_control_flow.md R112, marked derived there). -/
def Obligations.CallThenReturnRestores : Prop :=
  ∀ (s : State) (nnn : Addr12) (k : Fin 16), s.status = .running → s.pc.toNat ≤ 4094 → s.sp = k.castSucc →
    opAt s = 0x2#4 ++ nnn → nnn.toNat ≤ 4094 → opAt { s with pc := 0#4 ++ nnn } = 0x00EE#16 →
    ∃ t, step s = .next t ∧
      step t = .next { s with pc := s.pc + 2#16, stack := s.stack.set k.val (s.pc + 2#16) }

/-- 60_exceptions.md R202: sixteen nested calls succeed, and CALL with sp = 16 raises StackOverflow with its word and
address. -/
def Obligations.SeventeenthCallOverflows : Prop :=
  (∀ (s : State) (nnn : Addr12), s.sp = 16 →
    ∃ u, exec (.call nnn) s = .next u ∧ u.status = .faulted (.stackOverflow (0x2#4 ++ nnn) s.pc)) ∧
  ∀ (s : State) (targets : List Addr12) (nnn : Addr12), s.sp = 0 → targets.length = 16 →
    (∀ k ≤ 16, ∃ t, callAll (targets.take k) s = .next t ∧ t.status = s.status ∧ t.sp.val = k) ∧
    ∃ t u, callAll targets s = .next t ∧ exec (.call nnn) t = .next u ∧
      u.status = .faulted (.stackOverflow (0x2#4 ++ nnn) t.pc)

/-! ## Register and arithmetic instructions -/

/-- 41_arithmetic.md R131 and R132: the literal, and the sum mod 256 with no flag. -/
def Obligations.ImmediateLoadAndAdd : Prop :=
  ∀ (x : Nibble) (kk : Byte),
    decodeWord (0x6#4 ++ x ++ kk) = some (.ldImm x kk) ∧
    decodeWord (0x7#4 ++ x ++ kk) = some (.addImm x kk) ∧
    ∀ s : State,
      (∃ t, exec (.ldImm x kk) s = .next t ∧ t = { s with pc := s.pc + 2#16, V := t.V } ∧
        ∀ r, t.readV r = if r = x then kk else s.readV r) ∧
      (∃ t, exec (.addImm x kk) s = .next t ∧ t = { s with pc := s.pc + 2#16, V := t.V } ∧
        ∀ r, (t.readV r).toNat = if r = x then ((s.readV x).toNat + kk.toNat) % 256 else (s.readV r).toNat)

/-- 41_arithmetic.md R133 to R136: copy and the bitwise operations, no flag. -/
def Obligations.CopyAndBitwise : Prop :=
  ∀ (x y : Nibble),
    decodeWord (0x8#4 ++ x ++ y ++ 0x0#4) = some (.ldReg x y) ∧
    decodeWord (0x8#4 ++ x ++ y ++ 0x1#4) = some (.orReg x y) ∧
    decodeWord (0x8#4 ++ x ++ y ++ 0x2#4) = some (.andReg x y) ∧
    decodeWord (0x8#4 ++ x ++ y ++ 0x3#4) = some (.xorReg x y) ∧
    ∀ s : State,
      (∃ t, exec (.ldReg x y) s = .next t ∧ t = { s with pc := s.pc + 2#16, V := t.V } ∧
        ∀ r, t.readV r = if r = x then s.readV y else s.readV r) ∧
      (∃ t, exec (.orReg x y) s = .next t ∧ t = { s with pc := s.pc + 2#16, V := t.V } ∧
        ∀ r, t.readV r = if r = x then s.readV x ||| s.readV y else s.readV r) ∧
      (∃ t, exec (.andReg x y) s = .next t ∧ t = { s with pc := s.pc + 2#16, V := t.V } ∧
        ∀ r, t.readV r = if r = x then s.readV x &&& s.readV y else s.readV r) ∧
      (∃ t, exec (.xorReg x y) s = .next t ∧ t = { s with pc := s.pc + 2#16, V := t.V } ∧
        ∀ r, t.readV r = if r = x then s.readV x ^^^ s.readV y else s.readV r)

/-- ADD Vx, Vy (41_arithmetic.md R137); where x = F the flag is what VF holds, the spec's decision D6. -/
def Obligations.AddSetsCarry : Prop :=
  ∀ (x y : Nibble), decodeWord (0x8#4 ++ x ++ y ++ 0x4#4) = some (.addReg x y) ∧
    ∀ s : State, ∃ t, exec (.addReg x y) s = .next t ∧ t = { s with pc := s.pc + 2#16, V := t.V } ∧
      ∀ r, (t.readV r).toNat =
        if r = 0xF#4 then (if (s.readV x).toNat + (s.readV y).toNat > 255 then 1 else 0)
        else if r = x then ((s.readV x).toNat + (s.readV y).toNat) % 256
        else (s.readV r).toNat

/-- SUB Vx, Vy (41_arithmetic.md R138); where x = F the flag is what VF holds, the spec's decision D6. -/
def Obligations.SubSetsNoBorrow : Prop :=
  ∀ (x y : Nibble), decodeWord (0x8#4 ++ x ++ y ++ 0x5#4) = some (.sub x y) ∧
    ∀ s : State, ∃ t, exec (.sub x y) s = .next t ∧ t = { s with pc := s.pc + 2#16, V := t.V } ∧
      ∀ r, ((t.readV r).toNat : Int) =
        if r = 0xF#4 then (if (s.readV x).toNat ≥ (s.readV y).toNat then 1 else 0)
        else if r = x then ((s.readV x).toNat - (s.readV y).toNat : Int) % 256
        else (s.readV r).toNat

/-- SHR Vx, whatever the ignored nibble y (41_arithmetic.md R139); where x = F the flag wins, decision D6. -/
def Obligations.ShrShiftsRight : Prop :=
  ∀ (x y : Nibble), decodeWord (0x8#4 ++ x ++ y ++ 0x6#4) = some (.shr x y) ∧
    ∀ s : State, ∃ t, exec (.shr x y) s = .next t ∧ t = { s with pc := s.pc + 2#16, V := t.V } ∧
      ∀ r, (t.readV r).toNat =
        if r = 0xF#4 then (s.readV x).toNat % 2
        else if r = x then (s.readV x).toNat / 2
        else (s.readV r).toNat

/-- SUBN Vx, Vy (41_arithmetic.md R140); where x = F the flag is what VF holds, the spec's decision D6. -/
def Obligations.SubnSetsNoBorrow : Prop :=
  ∀ (x y : Nibble), decodeWord (0x8#4 ++ x ++ y ++ 0x7#4) = some (.subn x y) ∧
    ∀ s : State, ∃ t, exec (.subn x y) s = .next t ∧ t = { s with pc := s.pc + 2#16, V := t.V } ∧
      ∀ r, ((t.readV r).toNat : Int) =
        if r = 0xF#4 then (if (s.readV y).toNat ≥ (s.readV x).toNat then 1 else 0)
        else if r = x then ((s.readV y).toNat - (s.readV x).toNat : Int) % 256
        else (s.readV r).toNat

/-- SHL Vx, whatever the ignored nibble y (41_arithmetic.md R141); where x = F the flag wins, decision D6. -/
def Obligations.ShlShiftsLeft : Prop :=
  ∀ (x y : Nibble), decodeWord (0x8#4 ++ x ++ y ++ 0xE#4) = some (.shl x y) ∧
    ∀ s : State, ∃ t, exec (.shl x y) s = .next t ∧ t = { s with pc := s.pc + 2#16, V := t.V } ∧
      ∀ r, (t.readV r).toNat =
        if r = 0xF#4 then (s.readV x).toNat / 128
        else if r = x then (2 * (s.readV x).toNat) % 256
        else (s.readV r).toNat

/-- 41_arithmetic.md R142. -/
def Obligations.LdISetsI : Prop :=
  ∀ (nnn : Addr12),
    decodeWord (0xA#4 ++ nnn) = some (.ldI nnn) ∧
    ∀ s : State, exec (.ldI nnn) s = .next { s with pc := s.pc + 2#16, I := 0#4 ++ nnn }

/-- RND: the next byte of RAND, a free value (log 2, decision D9), masked by kk; one byte is consumed
(41_arithmetic.md R143). It holds whatever the byte is. -/
def Obligations.RndMasksTheNextByte : Prop :=
  ∀ (x : Nibble) (kk : Byte),
    decodeWord (0xC#4 ++ x ++ kk) = some (.rnd x kk) ∧
    ∀ s : State, ∃ t, exec (.rnd x kk) s = .next t ∧
      t = { s with pc := s.pc + 2#16, V := t.V, randPos := s.randPos + 1 } ∧
      ∀ r, t.readV r = if r = x then Config.randByte s.randPos &&& kk else s.readV r

/-- 41_arithmetic.md R145: no instruction of that file raises any exception, on any operands. -/
def Obligations.ArithmeticNeverFaults : Prop :=
  ∀ (i : Instr) (s : State), isArithmetic i = true → ∃ t, exec i s = .next t ∧ t.status = s.status

/-! ## Draw -/

/-- A DRW whose sprite lies in memory: every pixel is XORed with the sprite bit over it (none where the pixel is not
under the sprite; nothing wraps, decision D4), VF is 1 exactly when a drawn pixel was on, and nothing else changes
but the pc; V[x] and V[y] are those before VF is written (D5) (42_draw.md R162 to R166). -/
def Obligations.DrwXorsTheClippedSprite : Prop :=
  ∀ (x y n : Nibble), decodeWord (0xD#4 ++ x ++ y ++ n) = some (.drw x y n) ∧
    ∀ s : State, (n.toNat = 0 ∨ s.I.toNat + n.toNat ≤ 4096) →
      ∃ t, exec (.drw x y n) s = .next t ∧ t = { s with pc := s.pc + 2#16, V := t.V, FB := t.FB } ∧
        (∀ px py, t.FB.pixel px py = (s.FB.pixel px py ^^
          spriteBit s.mem s.I.toNat ((s.readV x).toNat % 64) ((s.readV y).toNat % 32) n.toNat px py)) ∧
        (∀ r, t.readV r =
          if r = 0xF#4 then
            (if ∃ px py, spriteBit s.mem s.I.toNat ((s.readV x).toNat % 64) ((s.readV y).toNat % 32) n.toNat px py = true ∧
                s.FB.pixel px py = true
              then 1#8 else 0#8)
          else s.readV r)

/-- A DRW whose sprite leaves memory raises AddressFault and writes nothing: VF, pixels and pc are unchanged
(42_draw.md R162, 60_exceptions.md R204; decisions D1, D7, D22). -/
def Obligations.DrwOutsideMemoryFaults : Prop :=
  ∀ (x y n : Nibble) (s : State), 0 < n.toNat → 4096 < s.I.toNat + n.toNat →
    exec (.drw x y n) s = .next { s with
      status := .faulted (.addressFault s.pc (BitVec.ofNat 16 (max s.I.toNat 4096)) (some (0xD#4 ++ x ++ y ++ n))) }

/-- Drawing the same sprite twice at the same position restores every pixel, and the second draw sets VF exactly when
the first turned a pixel on (42_draw.md R167, marked derived there). Between the draws anything else may change. -/
def Obligations.DrawingTwiceRestores : Prop :=
  ∀ (x y n : Nibble) (s t u : State), (n.toNat = 0 ∨ s.I.toNat + n.toNat ≤ 4096) → exec (.drw x y n) s = .next t →
    u.FB = t.FB → u.I = s.I → u.readV x = s.readV x → u.readV y = s.readV y →
    (∀ k < n.toNat, u.mem.byte (s.I.toNat + k) = s.mem.byte (s.I.toNat + k)) →
    ∃ w, exec (.drw x y n) u = .next w ∧ (∀ px py, w.FB.pixel px py = s.FB.pixel px py) ∧
      (w.readV 0xF#4 = 1#8 ∨ w.readV 0xF#4 = 0#8) ∧
      (w.readV 0xF#4 = 1#8 ↔ ∃ px py, s.FB.pixel px py = false ∧ t.FB.pixel px py = true)

/-- 42_draw.md R160: clear() sets every pixel off and writes nothing else; CLS uses it, the host may invoke it. -/
def Obligations.ClearTurnsEveryPixelOff : Prop :=
  ∀ s : State,
    externalClear s = { s with FB := (externalClear s).FB } ∧
    (∀ x y, pixel (externalClear s) x y = false) ∧
    exec .cls s = .next { externalClear s with pc := s.pc + 2#16 }

/-! ## Flags, registers, pc and frames over all instructions -/

/-- What VF holds after each instruction that completes, and which leave it alone (10_state.md R35; where x = F the flag
is last by decision D6). -/
def Obligations.FlagTable : Prop :=
  State.reset.readV 0xF#4 = 0#8 ∧
  ∀ (s t : State) (x y n : Nibble) (kk : Byte) (nnn : Addr12),
    (exec (.addReg x y) s = .next t →
      t.readV 0xF#4 = if (s.readV x).toNat + (s.readV y).toNat > 255 then 1#8 else 0#8) ∧
    (exec (.sub x y) s = .next t → t.readV 0xF#4 = if (s.readV x).toNat ≥ (s.readV y).toNat then 1#8 else 0#8) ∧
    (exec (.shr x y) s = .next t → t.readV 0xF#4 = if (s.readV x).getLsbD 0 then 1#8 else 0#8) ∧
    (exec (.subn x y) s = .next t → t.readV 0xF#4 = if (s.readV y).toNat ≥ (s.readV x).toNat then 1#8 else 0#8) ∧
    (exec (.shl x y) s = .next t → t.readV 0xF#4 = if (s.readV x).getLsbD 7 then 1#8 else 0#8) ∧
    (exec (.drw x y n) s = .next t → (n.toNat = 0 ∨ s.I.toNat + n.toNat ≤ 4096) →
      t.readV 0xF#4 =
        if ∃ px py, s.FB.pixel px py = true ∧ t.FB.pixel px py = false then 1#8 else 0#8) ∧
    (∀ i, i = .addImm x kk ∨ i = .ldReg x y ∨ i = .orReg x y ∨ i = .andReg x y ∨ i = .xorReg x y ∨ i = .rnd x kk →
      exec i s = .next t → x ≠ 0xF#4 → t.readV 0xF#4 = s.readV 0xF#4) ∧
    (exec (.ldI nnn) s = .next t → t.readV 0xF#4 = s.readV 0xF#4)

/-- The pc after every instruction (10_state.md R26, decisions D1 and D18): where the step faults, A; else the table's
value. -/
def Obligations.PcTable : Prop :=
  ∀ (s : State) (i : Instr), s.status = .running → i.wellFormed = true →
    ∃ t, exec i s = .next t ∧
      (((∃ r, t.status = .faulted r) ∧ t.pc = s.pc) ∨ ((∀ r, t.status ≠ .faulted r) ∧ t.pc = pcAfter i s))

/-- From 10_state.md R23: an instruction changes no general register but those it writes, and its whole effect depends on no
general register but those it reads (two states that differ in the others only give next states that differ in the
registers not written only). A faulting DRW writes none (60_exceptions.md R206, decision D1). For RND the two states draw
from one source at one position: that they draw the same byte is the model's form of the free value (log 2). -/
def Obligations.RegistersReadAndWritten : Prop :=
  ∀ (i : Instr) (s s' t : State), i.wellFormed = true → s.status = .running → AgreeButV s s' →
    (∀ r ∈ regsRead i, s.readV r = s'.readV r) → exec i s = .next t →
    ∃ t', exec i s' = .next t' ∧ AgreeButV t t' ∧
      (∀ r, r ∉ regsWritten i → t.readV r = s.readV r ∧ t'.readV r = s'.readV r) ∧
      ((∀ r ∈ regsWritten i, t.readV r = t'.readV r) ∨
        (∃ q, t.status = .faulted q) ∧ ∀ r, t.readV r = s.readV r ∧ t'.readV r = s'.readV r)

/-- Who writes what (10_state.md R24, R29, R31, R33, R37; 41_arithmetic.md R143): I only LD I; the stack and sp only CALL
and RET; the pixels only CLS and DRW; the RAND position only RND, by one (the model's own field, log 3); the status only
HALT and the three instructions that can fault; memory none. -/
def Obligations.OnlyTheNamedInstructionsWrite : Prop :=
  ∀ (i : Instr) (s t : State), exec i s = .next t →
    (t.I ≠ s.I → ∃ nnn, i = .ldI nnn) ∧
    (t.stack ≠ s.stack → ∃ nnn, i = .call nnn) ∧
    (t.sp ≠ s.sp → i = .ret ∨ ∃ nnn, i = .call nnn) ∧
    (t.FB ≠ s.FB → i = .cls ∨ ∃ x y n, i = .drw x y n) ∧
    (t.randPos = if ∃ x kk, i = .rnd x kk then s.randPos + 1 else s.randPos) ∧
    (t.status ≠ s.status → i = .halt ∨ i = .ret ∨ (∃ nnn, i = .call nnn) ∨ ∃ x y n, i = .drw x y n) ∧
    t.mem = s.mem ∧ ∀ a, t.mem.read a = s.mem.read a

/-- 20_memory.md R55: no step writes any byte of memory, whatever it fetches. -/
def Obligations.MemoryIsNeverWritten : Prop :=
  ∀ s t : State, Reaches s t → t.mem = s.mem ∧ ∀ a, t.mem.read a = s.mem.read a

/-- No instruction reads a stale stack entry (10_state.md R37): states that differ in stale entries only take steps to
states that differ in stale entries only. For RND the two states draw from one source at one position: that they draw
the same byte is the model's form of the free value (log 2). -/
def Obligations.StaleEntriesAreUnobservable : Prop :=
  ∀ s s' t : State, AgreeButStale s s' → step s = .next t → ∃ t', step s' = .next t' ∧ AgreeButStale t t'

/-! ## Memory, invariant, reset, interface -/

/-- MemRead (20_memory.md R51, decision D22): the n bytes in order, or the lowest address outside memory. -/
def Obligations.MemReadIsBoundsChecked : Prop :=
  ∀ (m : Memory) (addr n : Nat),
    ((∃ k < n, addr + k ≥ 4096) → memRead m addr n = .error (max addr 4096)) ∧
    ((∀ k < n, addr + k < 4096) → ∃ bs, memRead m addr n = .ok bs ∧ bs.length = n ∧
      ∀ k < n, bs[k]? = m.read (addr + k))

/-- Canonical memories that read alike everywhere are the same list: equal memories are equal data (the model's form). -/
def Obligations.CanonicalMemoriesAreEqual : Prop :=
  ∀ m m' : Memory, m.wf → m'.wf → (∀ a < 4096, m.read a = m'.read a) → m = m'

/-- The invariant holds at construction from any canonical launch memory, State.reset among them. -/
def Obligations.ConstructionMeetsTheInvariant : Prop :=
  State.reset.Inv ∧ ∀ mem0 : Memory, mem0.wf → (construct mem0).Inv

/-- Every step keeps it: canonical memory, I at most 0xFFF (10_state.md R24), pc at most 0x10FE (R28), stack entries at
most 0x1000 (40_control_flow.md R102), each marked derived there. -/
def Obligations.StepKeepsTheInvariant : Prop :=
  ∀ s t : State, s.Inv → step s = .next t → t.Inv

/-- The reset value of every piece of the spec's state, for every launch memory (10_state.md R38, decisions D11 and D21);
the all-zero mem0 of State.reset (log 4) is the model's choice. -/
def Obligations.ResetValues : Prop :=
  State.reset = construct [] ∧
  ∀ mem0 : Memory,
    (∀ r, (construct mem0).readV r = 0x00#8) ∧ (construct mem0).I = 0x0000#16 ∧ (construct mem0).pc = 0x0200#16 ∧
    (∀ k : Fin 16, (construct mem0).stack[k.val] = 0x0000#16) ∧ (construct mem0).sp = 0 ∧
    (construct mem0).mem = mem0 ∧ (∀ px py, pixel (construct mem0) px py = false) ∧
    (construct mem0).status = .running

/-- The loader's form of the launch memory (70_reset_and_hazards.md R232, decisions D11 and D12). -/
def Obligations.LoaderPlacesTheImage : Prop :=
  ∀ img : List Byte, 1 ≤ img.length → img.length ≤ 3584 →
    ∃ mem0, loadImage img = .ok mem0 ∧ launch img = .ok (construct mem0) ∧ mem0.wf ∧
      ∀ a < 4096, mem0.read a = some (if 0x200 ≤ a then (img[a - 0x200]?).getD 0x00#8 else 0x00#8)

/-- 70_reset_and_hazards.md R233: an empty or too long image is a load-time error and no machine is constructed. -/
def Obligations.MalformedImagesConstructNoMachine : Prop :=
  ∀ img : List Byte,
    (img = [] ∨ 3584 < img.length → ∃ e, loadImage img = .error e ∧ launch img = .error e) ∧
    (∀ s, launch img = .ok s → 1 ≤ img.length ∧ img.length ≤ 3584)

/-- run() repeats step() while Running: from a Running state it goes on from the step's next state; it goes through steps
only and stops at the first state that is not Running, where more budget changes nothing (70_reset_and_hazards.md R235,
R237 and R238; the budget is the model's, log 13). -/
def Obligations.RunStopsAtTheFirstTerminalState : Prop :=
  ∀ (fuel : Nat) (s : State),
    (∀ t, s.status = .running → step s = .next t → run (fuel + 1) s = run fuel t) ∧
    run 0 s = s ∧
    Reaches s (run fuel s) ∧
    ((run fuel s).status ≠ .running → ∀ k, run (fuel + k) s = run fuel s) ∧
    (s.status ≠ .running → run fuel s = s)

/-- A jump to itself: the step always succeeds and the run never ends (40_control_flow.md R103, 70_reset_and_hazards.md
R238). -/
def Obligations.JumpToItselfNeverEnds : Prop :=
  ∀ (s : State) (nnn : Addr12), s.status = .running → s.pc = 0#4 ++ nnn → nnn.toNat ≤ 4094 →
    opAt s = 0x1#4 ++ nnn → step s = .next s ∧ ∀ fuel, run fuel s = s
end

