-- ==== Sys2Proof/Laws/Decode.lean ====
section
/-! SUPPORT. Fields and assembled words as numbers, the decoder on assembled words. -/

namespace Sys2Proof

/-! ## Fields as numbers (30_encoding.md R71) -/

theorem toNat_fieldC (op : Word) : (fieldC op).toNat = op.toNat / 4096 := by
  have := op.isLt
  simp only [fieldC, BitVec.extractLsb'_toNat, Nat.shiftRight_eq_div_pow]
  omega
theorem toNat_fieldX (op : Word) : (fieldX op).toNat = op.toNat / 256 % 16 := by
  simp only [fieldX, BitVec.extractLsb'_toNat, Nat.shiftRight_eq_div_pow, Nat.reducePow]
theorem toNat_fieldY (op : Word) : (fieldY op).toNat = op.toNat / 16 % 16 := by
  simp only [fieldY, BitVec.extractLsb'_toNat, Nat.shiftRight_eq_div_pow, Nat.reducePow]
theorem toNat_fieldD (op : Word) : (fieldD op).toNat = op.toNat % 16 := by
  simp only [fieldD, BitVec.extractLsb'_toNat, Nat.shiftRight_zero, Nat.reducePow]
theorem toNat_fieldNnn (op : Word) : (fieldNnn op).toNat = op.toNat % 4096 := by
  simp only [fieldNnn, BitVec.extractLsb'_toNat, Nat.shiftRight_zero, Nat.reducePow]
theorem toNat_fieldKk (op : Word) : (fieldKk op).toNat = op.toNat % 256 := by
  simp only [fieldKk, BitVec.extractLsb'_toNat, Nat.shiftRight_zero, Nat.reducePow]

/-! ## Assembled words as numbers -/

theorem toNat_append_eq {n m : Nat} (a : BitVec n) (b : BitVec m) : (a ++ b).toNat = a.toNat * 2 ^ m + b.toNat := by
  rw [BitVec.toNat_append, Nat.shiftLeft_eq, Nat.mul_comm, Nat.two_pow_add_eq_or_of_lt b.isLt]

theorem toNat_wordNnn (c : Nibble) (nnn : Addr12) : (wordNnn c nnn).toNat = c.toNat * 4096 + nnn.toNat :=
  toNat_append_eq c nnn
theorem toNat_wordXkk (c x : Nibble) (kk : Byte) :
    (wordXkk c x kk).toNat = c.toNat * 4096 + x.toNat * 256 + kk.toNat := by
  have h : (wordXkk c x kk).toNat = (c ++ x).toNat * 256 + kk.toNat := toNat_append_eq (c ++ x) kk
  rw [h, toNat_append_eq]; omega
theorem toNat_word4 (c x y d : Nibble) :
    (word4 c x y d).toNat = c.toNat * 4096 + x.toNat * 256 + y.toNat * 16 + d.toNat := by
  have h : (word4 c x y d).toNat = (c ++ x ++ y).toNat * 16 + d.toNat := toNat_append_eq (c ++ x ++ y) d
  rw [h, toNat_append_eq, toNat_append_eq]; omega
theorem toNat_wordOfBytes (hi lo : Byte) : (wordOfBytes hi lo).toNat = hi.toNat * 256 + lo.toNat :=
  toNat_append_eq hi lo

/-- A word is the word of its two bytes, high byte first. -/
theorem wordOfBytes_bytes (op : Word) : wordOfBytes (op.extractLsb' 8 8) (op.extractLsb' 0 8) = op := by
  have := op.isLt
  apply BitVec.eq_of_toNat_eq
  simp only [toNat_wordOfBytes, BitVec.extractLsb'_toNat, Nat.shiftRight_eq_div_pow]
  omega

/-! ## Fields of assembled words -/

@[simp] theorem fieldC_wordNnn (c : Nibble) (nnn : Addr12) : fieldC (wordNnn c nnn) = c := by
  apply BitVec.eq_of_toNat_eq; rw [toNat_fieldC, toNat_wordNnn]; omega
@[simp] theorem fieldNnn_wordNnn (c : Nibble) (nnn : Addr12) : fieldNnn (wordNnn c nnn) = nnn := by
  apply BitVec.eq_of_toNat_eq; rw [toNat_fieldNnn, toNat_wordNnn]; omega
@[simp] theorem fieldX_wordNnn (c : Nibble) (nnn : Addr12) : fieldX (wordNnn c nnn) = nnn.extractLsb' 8 4 := by
  apply BitVec.eq_of_toNat_eq
  simp only [toNat_fieldX, toNat_wordNnn, BitVec.extractLsb'_toNat, Nat.shiftRight_eq_div_pow]; omega

@[simp] theorem fieldC_wordXkk (c x : Nibble) (kk : Byte) : fieldC (wordXkk c x kk) = c := by
  apply BitVec.eq_of_toNat_eq; rw [toNat_fieldC, toNat_wordXkk]; omega
@[simp] theorem fieldX_wordXkk (c x : Nibble) (kk : Byte) : fieldX (wordXkk c x kk) = x := by
  apply BitVec.eq_of_toNat_eq; rw [toNat_fieldX, toNat_wordXkk]; omega
@[simp] theorem fieldKk_wordXkk (c x : Nibble) (kk : Byte) : fieldKk (wordXkk c x kk) = kk := by
  apply BitVec.eq_of_toNat_eq; rw [toNat_fieldKk, toNat_wordXkk]; omega

@[simp] theorem fieldC_word4 (c x y d : Nibble) : fieldC (word4 c x y d) = c := by
  apply BitVec.eq_of_toNat_eq; rw [toNat_fieldC, toNat_word4]; omega
@[simp] theorem fieldX_word4 (c x y d : Nibble) : fieldX (word4 c x y d) = x := by
  apply BitVec.eq_of_toNat_eq; rw [toNat_fieldX, toNat_word4]; omega
@[simp] theorem fieldY_word4 (c x y d : Nibble) : fieldY (word4 c x y d) = y := by
  apply BitVec.eq_of_toNat_eq; rw [toNat_fieldY, toNat_word4]; omega
@[simp] theorem fieldD_word4 (c x y d : Nibble) : fieldD (word4 c x y d) = d := by
  apply BitVec.eq_of_toNat_eq; rw [toNat_fieldD, toNat_word4]; omega

/-! ## A word put together again from its fields -/

theorem wordNnn_fields (op : Word) : wordNnn (fieldC op) (fieldNnn op) = op := by
  apply BitVec.eq_of_toNat_eq; rw [toNat_wordNnn, toNat_fieldC, toNat_fieldNnn]; omega
theorem wordXkk_fields (op : Word) : wordXkk (fieldC op) (fieldX op) (fieldKk op) = op := by
  apply BitVec.eq_of_toNat_eq; rw [toNat_wordXkk, toNat_fieldC, toNat_fieldX, toNat_fieldKk]; omega
theorem word4_fields (op : Word) : word4 (fieldC op) (fieldX op) (fieldY op) (fieldD op) = op := by
  apply BitVec.eq_of_toNat_eq; rw [toNat_word4, toNat_fieldC, toNat_fieldX, toNat_fieldY, toNat_fieldD]; omega

/-! ## Masks of assembled words, as the rows of R74 test them -/

theorem getLsbD_wordNnn (c : Nibble) (nnn : Addr12) (i : Nat) :
    (wordNnn c nnn).getLsbD i = if i < 12 then nnn.getLsbD i else c.getLsbD (i - 12) :=
  BitVec.getLsbD_append
theorem getLsbD_word4 (c x y d : Nibble) (i : Nat) :
    (word4 c x y d).getLsbD i = if i < 4 then d.getLsbD i else if i < 8 then y.getLsbD (i - 4)
      else if i < 12 then x.getLsbD (i - 8) else c.getLsbD (i - 12) := by
  have h1 : (word4 c x y d).getLsbD i = if i < 4 then d.getLsbD i else (c ++ x ++ y).getLsbD (i - 4) :=
    BitVec.getLsbD_append
  rw [h1, BitVec.getLsbD_append, BitVec.getLsbD_append, Nat.sub_sub, Nat.sub_sub]
  split
  · rfl
  · simp only [show i - 4 < 4 ↔ i < 8 by omega, show i - (4 + 4) < 4 ↔ i < 12 by omega]
theorem wordNnn_mask (c : Nibble) (nnn : Addr12) : wordNnn c nnn &&& 0xF000#16 = wordNnn c 0#12 := by
  apply BitVec.eq_of_getLsbD_eq
  intro i hi
  simp only [BitVec.getLsbD_and, getLsbD_wordNnn]
  interval_cases i <;> simp
theorem wordXkk_mask (c x : Nibble) (kk : Byte) : wordXkk c x kk &&& 0xF000#16 = wordNnn c 0#12 := by
  rw [show wordXkk c x kk = wordNnn c (x ++ kk) from ?_, wordNnn_mask]
  apply BitVec.eq_of_toNat_eq
  rw [toNat_wordXkk, toNat_wordNnn, toNat_append_eq]; omega
theorem word4_mask_F00F (c x y d : Nibble) : word4 c x y d &&& 0xF00F#16 = word4 c 0#4 0#4 d := by
  apply BitVec.eq_of_getLsbD_eq
  intro i hi
  simp only [BitVec.getLsbD_and, getLsbD_word4]
  interval_cases i <;> simp
theorem word4_mask_F000 (c x y d : Nibble) : word4 c x y d &&& 0xF000#16 = wordNnn c 0#12 := by
  rw [show word4 c x y d = wordNnn c (x ++ y ++ d) from ?_, wordNnn_mask]
  apply BitVec.eq_of_toNat_eq
  rw [toNat_word4, toNat_wordNnn]
  have h : (x ++ y ++ d).toNat = (x ++ y).toNat * 16 + d.toNat := toNat_append_eq (x ++ y) d
  rw [h, toNat_append_eq]; omega

/-! ## The byte decoder and the host's probe -/

/-- Decoding the two bytes of a word, whatever follows them. -/
theorem decodeBytes_word (op : Word) (rest : List Byte) :
    decodeBytes (op.extractLsb' 8 8 :: op.extractLsb' 0 8 :: rest) =
      match decodeWord op with
      | some i => .ok (i, rest)
      | none => .error (.unimplementedOpcode op) := by
  cases h : decodeWord op <;> simp only [decodeBytes, wordOfBytes_bytes, h]

/-- The host's probe of a 16-bit row is the decoder on its word. -/
theorem decodeTableWord_eq (nbits w : Nat) :
    decodeTableWord nbits w = decodeWord (BitVec.ofNat 16 (w % 2 ^ nbits)) := by
  simp only [decodeTableWord, decodeBytes_word]
  cases decodeWord (BitVec.ofNat 16 (w % 2 ^ nbits)) <;> rfl

end Sys2Proof
end

