-- ==== Sys2Proof/Laws/Display.lean ====
section
/-! SUPPORT. The laws of the framebuffer and of the sprite loop (spec/42_draw.md R160 to R166). -/

namespace Sys2Proof.Machine

/-- Framebuffers that read alike are equal. -/
theorem Framebuffer.ext_pixel {a b : Framebuffer} (h : ∀ px py, a.pixel px py = b.pixel px py) : a = b := by
  refine Vector.ext fun j hj => Vector.ext fun k hk => ?_
  exact h ⟨k, hk⟩ ⟨j, hj⟩

@[simp] theorem pixel_cleared (px : Fin 64) (py : Fin 32) : Framebuffer.cleared.pixel px py = false := by
  simp [Framebuffer.pixel, Framebuffer.cleared]

/-- A pixel read after a pixel write. -/
theorem pixel_setPixel (fb : Framebuffer) (qx : Fin 64) (qy : Fin 32) (b : Bool) (px : Fin 64) (py : Fin 32) :
    (fb.setPixel qx qy b).pixel px py = if px = qx ∧ py = qy then b else fb.pixel px py := by
  simp only [Framebuffer.pixel, Framebuffer.setPixel, Vector.getElem_set]
  by_cases hy : py = qy
  · subst hy
    by_cases hx : px = qx
    · subst hx; simp
    · simp [hx, show ¬ qx.val = px.val from fun h => hx (Fin.ext h.symm)]
  · simp [hy, show ¬ qy.val = py.val from fun h => hy (Fin.ext h.symm)]

/-- One sprite bit: it toggles the pixel it is set for, and that pixel's old value is the collision (42_draw.md R166). -/
theorem drawBit_pixel (cx cy : Nat) (bit : Bool) (c : Canvas) (px : Fin 64) (py : Fin 32) :
    (drawBit cx cy bit c).fb.pixel px py =
      (c.fb.pixel px py ^^ (bit && decide (px.val = cx ∧ py.val = cy))) := by
  cases bit with
  | false => simp [drawBit]
  | true =>
    by_cases h : cx < 64 ∧ cy < 32
    · simp only [drawBit, fbDecode, dif_pos h, if_true, Framebuffer.toggle, pixel_setPixel, Fin.ext_iff]
      by_cases he : px.val = cx ∧ py.val = cy
      · obtain ⟨rfl, rfl⟩ := he; simp
      · simp [he]
    · have hne : ¬ (px.val = cx ∧ py.val = cy) := by
        rintro ⟨rfl, rfl⟩; exact h ⟨px.isLt, py.isLt⟩
      simp [drawBit, fbDecode, h, hne]

/-- One sprite bit finds a collision exactly where it is set on a pixel that is on. -/
theorem drawBit_collided (cx cy : Nat) (bit : Bool) (c : Canvas) :
    (drawBit cx cy bit c).collided = true ↔
      c.collided = true ∨ ∃ px py, (bit && decide (px.val = cx ∧ py.val = cy)) = true ∧ c.fb.pixel px py = true := by
  cases bit with
  | false => simp [drawBit]
  | true =>
    by_cases h : cx < 64 ∧ cy < 32
    · simp only [drawBit, fbDecode, dif_pos h, if_true, Framebuffer.toggle, Bool.or_eq_true]
      refine or_congr_right ⟨fun hp => ⟨⟨cx, h.1⟩, ⟨cy, h.2⟩, by simp, hp⟩, ?_⟩
      rintro ⟨px, py, he, hp⟩
      obtain ⟨rfl, rfl⟩ : px.val = cx ∧ py.val = cy := by simpa using he
      exact hp
    · have hne : ∀ (px : Fin 64) (py : Fin 32), ¬ (px.val = cx ∧ py.val = cy) := by
        rintro px py ⟨rfl, rfl⟩; exact h ⟨px.isLt, py.isLt⟩
      simp [drawBit, fbDecode, h, hne]

/-- What a canvas has become after a set of pixels has been toggled on it, each at most once. -/
structure Drawn (bits : Fin 64 → Fin 32 → Bool) (c d : Canvas) : Prop where
  pixel : ∀ px py, d.fb.pixel px py = (c.fb.pixel px py ^^ bits px py)
  collided : d.collided = true ↔ c.collided = true ∨ ∃ px py, bits px py = true ∧ c.fb.pixel px py = true

/-- Nothing drawn. -/
theorem Drawn.refl (c : Canvas) : Drawn (fun _ _ => false) c c := ⟨by simp, by simp⟩

/-- Two disjoint drawings one after the other. -/
theorem Drawn.trans {b₁ b₂ b : Fin 64 → Fin 32 → Bool} {c d e : Canvas} (h₁ : Drawn b₁ c d) (h₂ : Drawn b₂ d e)
    (hb : ∀ px py, b px py = (b₁ px py || b₂ px py)) (hd : ∀ px py, b₁ px py = true → b₂ px py = false) :
    Drawn b c e := by
  have hx : ∀ px py, (b₁ px py ^^ b₂ px py) = b px py := fun px py => by
    rw [hb]; cases h : b₁ px py <;> simp [hd px py, h]
  refine ⟨fun px py => by rw [h₂.pixel, h₁.pixel, Bool.xor_assoc, hx], ?_⟩
  rw [h₂.collided, h₁.collided, or_assoc]
  refine or_congr_right ⟨?_, ?_⟩
  · rintro (⟨px, py, h, hp⟩ | ⟨px, py, h, hp⟩)
    · exact ⟨px, py, by simp [hb, h], hp⟩
    · refine ⟨px, py, by simp [hb, h], ?_⟩
      rw [h₁.pixel] at hp
      cases h1 : b₁ px py with
      | false => simpa [h1] using hp
      | true => simp [hd px py h1] at h
  · rintro ⟨px, py, h, hp⟩
    rw [hb, Bool.or_eq_true] at h
    rcases h with h | h
    · exact .inl ⟨px, py, h, hp⟩
    · refine .inr ⟨px, py, h, ?_⟩
      cases h1 : b₁ px py with
      | false => simpa [h₁.pixel, h1] using hp
      | true => simp [hd px py h1] at h

/-- One sprite bit as a drawing. -/
theorem drawBit_drawn (cx cy : Nat) (bit : Bool) (c : Canvas) :
    Drawn (fun px py => bit && decide (px.val = cx ∧ py.val = cy)) c (drawBit cx cy bit c) :=
  ⟨drawBit_pixel cx cy bit c, drawBit_collided cx cy bit c⟩

/-- The first `k` bits of a sprite row. -/
theorem drawRow_prefix (x0 cy : Nat) (row : Byte) (c : Canvas) (k : Nat) :
    Drawn (fun px py => decide (x0 ≤ px.val ∧ px.val < x0 + k ∧ py.val = cy) && row.getLsbD (7 - (px.val - x0))) c
      ((List.range k).foldl (fun c j => drawBit (x0 + j) cy (row.getLsbD (7 - j)) c) c) := by
  induction k with
  | zero =>
    have h : (fun (px : Fin 64) (py : Fin 32) =>
        decide (x0 ≤ px.val ∧ px.val < x0 + 0 ∧ py.val = cy) && row.getLsbD (7 - (px.val - x0))) =
        fun _ _ => false := by
      funext px py
      rw [decide_eq_false (by omega)]; rfl
    rw [h]; exact Drawn.refl c
  | succ k ih =>
    rw [List.range_succ, List.foldl_append]
    refine ih.trans (drawBit_drawn (x0 + k) cy _ _) (fun px py => ?_) (fun px py h => ?_)
    · by_cases he : px.val = x0 + k ∧ py.val = cy
      · have h1 : px.val - x0 = k := by omega
        simp [he.1, he.2]
      · have h1 : (x0 ≤ px.val ∧ px.val < x0 + (k + 1) ∧ py.val = cy) ↔
            (x0 ≤ px.val ∧ px.val < x0 + k ∧ py.val = cy) := by omega
        simp only [h1, decide_eq_false he, Bool.and_false, Bool.or_false]
    · have h1 := of_decide_eq_true (Bool.and_eq_true_iff.mp h).1
      rw [decide_eq_false (show ¬ (px.val = x0 + k ∧ py.val = cy) by omega), Bool.and_false]

/-- One sprite row as a drawing (42_draw.md R164). -/
theorem drawRow_drawn (x0 cy : Nat) (row : Byte) (c : Canvas) :
    Drawn (fun px py => decide (x0 ≤ px.val ∧ px.val < x0 + 8 ∧ py.val = cy) && row.getLsbD (7 - (px.val - x0))) c
      (drawRow x0 cy row c) := drawRow_prefix x0 cy row c 8

/-- Sprite rows from screen row `cy` down as one drawing: row r is byte r of the list (42_draw.md R162, R164). -/
theorem drawRows_drawn (x0 cy : Nat) (rows : List Byte) (c : Canvas) :
    Drawn (fun px py => decide (x0 ≤ px.val ∧ px.val < x0 + 8 ∧ cy ≤ py.val ∧ py.val < cy + rows.length) &&
      (rows.getD (py.val - cy) 0#8).getLsbD (7 - (px.val - x0))) c (drawRows x0 cy rows c) := by
  induction rows generalizing cy c with
  | nil =>
    have h : (fun (px : Fin 64) (py : Fin 32) =>
        decide (x0 ≤ px.val ∧ px.val < x0 + 8 ∧ cy ≤ py.val ∧ py.val < cy + ([] : List Byte).length) &&
          (([] : List Byte).getD (py.val - cy) 0#8).getLsbD (7 - (px.val - x0))) = fun _ _ => false := by
      funext px py
      rw [decide_eq_false (by simp only [List.length_nil]; omega)]; rfl
    rw [h]; exact Drawn.refl c
  | cons row rows ih =>
    refine (drawRow_drawn x0 cy row c).trans (ih (cy + 1) _) (fun px py => ?_) (fun px py h => ?_)
    · simp only [List.length_cons]
      by_cases he : py.val = cy
      · rw [decide_eq_false (show ¬ (x0 ≤ px.val ∧ px.val < x0 + 8 ∧ cy + 1 ≤ py.val ∧
            py.val < cy + 1 + rows.length) by omega), Bool.false_and, Bool.or_false, he, Nat.sub_self,
          List.getD_cons_zero]
        congr 2
        exact propext ⟨fun h => ⟨h.1, h.2.1, rfl⟩, fun h => ⟨h.1, h.2.1, by omega, by omega⟩⟩
      · rw [decide_eq_false (show ¬ (x0 ≤ px.val ∧ px.val < x0 + 8 ∧ py.val = cy) by omega), Bool.false_and,
          Bool.false_or]
        by_cases hlt : cy < py.val
        · have h1 : py.val - cy = (py.val - (cy + 1)) + 1 := by omega
          rw [h1, List.getD_cons_succ]
          congr 2
          exact propext ⟨fun h => ⟨h.1, h.2.1, by omega, by omega⟩, fun h => ⟨h.1, h.2.1, by omega, by omega⟩⟩
        · rw [decide_eq_false (by omega), decide_eq_false (by omega), Bool.false_and, Bool.false_and]
    · have h1 := of_decide_eq_true (Bool.and_eq_true_iff.mp h).1
      rw [decide_eq_false (by omega), Bool.false_and]

/-- The whole blit as one drawing on a framebuffer without collisions so far (42_draw.md R162). -/
theorem blit_drawn (x0 y0 : Nat) (rows : List Byte) (fb : Framebuffer) :
    Drawn (fun px py => decide (x0 ≤ px.val ∧ px.val < x0 + 8 ∧ y0 ≤ py.val ∧ py.val < y0 + rows.length) &&
      (rows.getD (py.val - y0) 0#8).getLsbD (7 - (px.val - x0))) ⟨fb, false⟩ (blit x0 y0 rows fb) :=
  drawRows_drawn x0 y0 rows ⟨fb, false⟩

end Sys2Proof.Machine
end

