-- ==== Sys2Proof/Laws/Memory.lean ====
section
/-! SUPPORT. The laws of memory: the canonical form is kept by every operation, and a read after a write. -/

namespace Sys2Proof.Machine

theorem wf_nil : Memory.wf [] := ⟨List.Pairwise.nil, fun _ h => nomatch h⟩

theorem wf_tail {c : Host.Cell} {m : Memory} (h : Memory.wf (c :: m)) : Memory.wf m :=
  ⟨(List.pairwise_cons.mp h.1).2, fun d hd => h.2 d (List.mem_cons_of_mem _ hd)⟩

/-- In a canonical memory nothing is listed below the first entry. -/
theorem byte_of_lt {m : Memory} {a : Nat} (h : ∀ c ∈ m, a < c.1) : m.byte a = Memory.unlisted := by
  induction m with
  | nil => rfl
  | cons c m ih =>
    obtain ⟨k, b⟩ := c
    have hk : a < k := h (k, b) (by simp)
    simp only [Memory.byte, if_neg (show ¬ k = a by omega)]
    exact ih fun d hd => h d (List.mem_cons_of_mem _ hd)

/-- The addresses `put` lists are the old ones and the new one. -/
theorem mem_put {m : Memory} {a : Nat} {b : Byte} {c : Host.Cell} (h : c ∈ m.put a b) :
    c = (a, b) ∧ b ≠ Memory.unlisted ∨ c ∈ m := by
  induction m with
  | nil =>
    simp only [Memory.put] at h
    split at h <;> simp_all
  | cons d m ih =>
    obtain ⟨k, e⟩ := d
    simp only [Memory.put] at h
    split at h
    · split at h
      · exact .inr h
      · rcases List.mem_cons.mp h with h | h
        · exact .inl ⟨h, ‹_›⟩
        · exact .inr h
    · split at h
      · split at h
        · exact .inr (List.mem_cons_of_mem _ h)
        · rcases List.mem_cons.mp h with h | h
          · exact .inl ⟨h, ‹_›⟩
          · exact .inr (List.mem_cons_of_mem _ h)
      · rcases List.mem_cons.mp h with h | h
        · exact .inr (h ▸ List.mem_cons_self)
        · rcases ih h with h | h
          · exact .inl h
          · exact .inr (List.mem_cons_of_mem _ h)

theorem put_pairwise {m : Memory} {a : Nat} {b : Byte} (h : m.Pairwise (fun c d => c.1 < d.1)) :
    (m.put a b).Pairwise (fun c d => c.1 < d.1) := by
  induction m with
  | nil => simp only [Memory.put]; split <;> simp
  | cons c m ih =>
    obtain ⟨k, e⟩ := c
    obtain ⟨hk, hm⟩ := List.pairwise_cons.mp h
    simp only [Memory.put]
    split
    · rename_i hlt
      split
      · exact h
      · refine List.pairwise_cons.mpr ⟨fun d hd => ?_, h⟩
        rcases List.mem_cons.mp hd with hd | hd
        · simpa [hd] using hlt
        · exact Nat.lt_trans hlt (hk d hd)
    · split
      · rename_i heq
        split
        · exact hm
        · exact List.pairwise_cons.mpr ⟨fun d hd => by simpa [heq] using hk d hd, hm⟩
      · refine List.pairwise_cons.mpr ⟨fun d hd => ?_, ih hm⟩
        rcases mem_put hd with ⟨hd, -⟩ | hd
        · rw [hd]; show k < a; omega
        · exact hk d hd

/-- `put` inside the space keeps the canonical form. -/
theorem put_wf {m : Memory} {a : Nat} {b : Byte} (ha : a < Config.memSize) (h : m.wf) : (m.put a b).wf :=
  ⟨put_pairwise h.1, fun c hc => by
    rcases mem_put hc with ⟨hc, hb⟩ | hc
    · rw [hc]; exact ⟨ha, hb⟩
    · exact h.2 c hc⟩

/-- Every write keeps the canonical form. -/
theorem write_wf {m : Memory} {a : Nat} {b : Byte} (h : m.wf) : (m.write a b).wf := by
  unfold Memory.write
  split
  · exact put_wf ‹_› h
  · exact h

/-- Writing a run of bytes keeps the canonical form. -/
theorem writeBytes_wf {m : Memory} {a : Nat} {bs : List Byte} (h : m.wf) : (m.writeBytes a bs).wf := by
  induction bs generalizing m a with
  | nil => exact h
  | cons b bs ih => exact ih (write_wf h)

/-- Storing a word keeps the canonical form. -/
theorem storeWord_wf {m : Memory} {a : Nat} {op : Word} (h : m.wf) : (m.storeWord a op).wf := writeBytes_wf h

/-- A loaded image's memory is canonical. -/
theorem loadImage_wf {img : List Byte} {m : Memory} (h : loadImage img = .ok m) : m.wf := by
  unfold loadImage at h
  split at h
  · cases h
  · split at h
    · cases h
    · cases h; exact writeBytes_wf wf_nil

/-- A byte read after `put`. -/
theorem byte_put {m : Memory} {a : Nat} {b : Byte} (h : m.Pairwise (fun c d => c.1 < d.1)) (k : Nat) :
    (m.put a b).byte k = if k = a then b else m.byte k := by
  induction m with
  | nil =>
    simp only [Memory.put]
    split <;> split <;> simp_all [Memory.byte, eq_comm]
  | cons c m ih =>
    obtain ⟨j, e⟩ := c
    obtain ⟨hj, hm⟩ := List.pairwise_cons.mp h
    simp only [Memory.put]
    split
    · rename_i hlt
      split
      · split
        · rename_i hb hk
          rw [hk, hb]
          refine byte_of_lt fun d hd => ?_
          rcases List.mem_cons.mp hd with hd | hd
          · simpa [hd] using hlt
          · exact Nat.lt_trans hlt (hj d hd)
        · rfl
      · simp only [Memory.byte, eq_comm (a := a)]
    · split
      · rename_i heq
        split
        · split
          · rename_i hb hk
            rw [hk, hb]
            exact byte_of_lt fun d hd => by simpa [heq] using hj d hd
          · rename_i hk
            simp only [Memory.byte, if_neg (show ¬ j = k by omega)]
        · simp only [Memory.byte, heq, eq_comm (a := j)]
          split <;> simp_all
      · simp only [Memory.byte, ih hm]
        split
        · rename_i hjk; rw [if_neg (by omega)]
        · rfl

/-- A byte read after a write inside the space. -/
theorem byte_write {m : Memory} {a : Nat} {b : Byte} (h : m.wf) (ha : a < Config.memSize) (k : Nat) :
    (m.write a b).byte k = if k = a then b else m.byte k := by
  rw [Memory.write, if_pos ha, byte_put h.1]

/-- A byte read after a run of bytes written inside the space. -/
theorem byte_writeBytes {m : Memory} {a : Nat} {bs : List Byte} (h : m.wf) (ha : a + bs.length ≤ Config.memSize)
    (k : Nat) :
    (m.writeBytes a bs).byte k = if hk : a ≤ k ∧ k < a + bs.length then bs[k - a]'(by omega) else m.byte k := by
  induction bs generalizing m a with
  | nil =>
    simp only [Memory.writeBytes, List.length_nil]
    split
    · omega
    · rfl
  | cons b bs ih =>
    simp only [List.length_cons] at ha
    rw [Memory.writeBytes, ih (write_wf h) (by omega), byte_write h (by omega)]
    by_cases hk : k = a
    · subst hk
      rw [dif_neg (by omega), if_pos rfl, dif_pos (by simp)]
      simp
    · rw [if_neg hk]
      by_cases hk2 : a + 1 ≤ k ∧ k < a + 1 + bs.length
      · rw [dif_pos hk2, dif_pos (by simp only [List.length_cons]; omega)]
        obtain ⟨j, rfl⟩ : ∃ j, k = a + 1 + j := ⟨k - (a + 1), by omega⟩
        simp [show a + 1 + j - a = j + 1 by omega]
      · rw [dif_neg hk2, dif_neg (by simp only [List.length_cons]; omega)]

/-- The two bytes of a stored word make the word again, and no other byte changes. -/
theorem byte_storeWord {m : Memory} {a : Nat} {op : Word} (h : m.wf) (ha : a + 1 < Config.memSize) (k : Nat) :
    (m.storeWord a op).byte k =
      if k = a then op.extractLsb' 8 8 else if k = a + 1 then op.extractLsb' 0 8 else m.byte k := by
  rw [Memory.storeWord, byte_writeBytes h (by simp only [List.length_cons, List.length_nil]; omega)]
  by_cases h0 : k = a
  · subst h0; simp
  · by_cases h1 : k = a + 1
    · subst h1; simp
    · rw [dif_neg (by simp only [List.length_cons, List.length_nil]; omega), if_neg h0, if_neg h1]

/-- Reading a byte inside the space. -/
theorem read_eq_some {m : Memory} {a : Nat} {b : Byte} : m.read a = some b ↔ a < 4096 ∧ m.byte a = b := by
  simp [Memory.read]

end Sys2Proof.Machine
end

