-- ==== Sys2Proof/Laws/PerInstr.lean ====
section
/-! SUPPORT. Statements made per instruction: each instruction's word selects its own row of the opcode table. -/

/-- The word of the instruction selects a row of R74 that carries the instruction's mnemonic. -/
def Sys2Proof.Laws.RowMatch.Statement (i : Sys2Proof.Instr) : Prop :=
  ∃ r ∈ Sys2Proof.opcodeTable, r.mnemonic = i.mnemonic ∧ Sys2Proof.rowSelects r (Sys2Proof.encode i) = true

namespace Sys2Proof.Laws.RowMatch

/-- A row of the table shows the statement. -/
theorem of_row (i : Instr) (k : Fin 24) (hm : (opcodeTable[k.val]'k.isLt).mnemonic = i.mnemonic)
    (hs : encode i &&& (opcodeTable[k.val]'k.isLt).mask = (opcodeTable[k.val]'k.isLt).pattern) : Statement i :=
  ⟨opcodeTable[k.val]'k.isLt, List.getElem_mem _, hm, by simpa [rowSelects] using hs⟩

theorem halt : Statement (.halt) := of_row _ 0 rfl (rfl)
theorem cls : Statement (.cls) := of_row _ 1 rfl (rfl)
theorem ret : Statement (.ret) := of_row _ 2 rfl (rfl)
theorem jp (nnn : Addr12) : Statement (.jp nnn) := of_row _ 3 rfl (wordNnn_mask _ nnn)
theorem call (nnn : Addr12) : Statement (.call nnn) := of_row _ 4 rfl (wordNnn_mask _ nnn)
theorem seImm (x : Nibble) (kk : Byte) : Statement (.seImm x kk) := of_row _ 5 rfl (wordXkk_mask _ x kk)
theorem sneImm (x : Nibble) (kk : Byte) : Statement (.sneImm x kk) := of_row _ 6 rfl (wordXkk_mask _ x kk)
theorem seReg (x y : Nibble) : Statement (.seReg x y) := of_row _ 7 rfl (word4_mask_F00F _ x y _)
theorem ldImm (x : Nibble) (kk : Byte) : Statement (.ldImm x kk) := of_row _ 8 rfl (wordXkk_mask _ x kk)
theorem addImm (x : Nibble) (kk : Byte) : Statement (.addImm x kk) := of_row _ 9 rfl (wordXkk_mask _ x kk)
theorem ldReg (x y : Nibble) : Statement (.ldReg x y) := of_row _ 10 rfl (word4_mask_F00F _ x y _)
theorem orReg (x y : Nibble) : Statement (.orReg x y) := of_row _ 11 rfl (word4_mask_F00F _ x y _)
theorem andReg (x y : Nibble) : Statement (.andReg x y) := of_row _ 12 rfl (word4_mask_F00F _ x y _)
theorem xorReg (x y : Nibble) : Statement (.xorReg x y) := of_row _ 13 rfl (word4_mask_F00F _ x y _)
theorem addReg (x y : Nibble) : Statement (.addReg x y) := of_row _ 14 rfl (word4_mask_F00F _ x y _)
theorem sub (x y : Nibble) : Statement (.sub x y) := of_row _ 15 rfl (word4_mask_F00F _ x y _)
theorem shr (x y : Nibble) : Statement (.shr x y) := of_row _ 16 rfl (word4_mask_F00F _ x y _)
theorem subn (x y : Nibble) : Statement (.subn x y) := of_row _ 17 rfl (word4_mask_F00F _ x y _)
theorem shl (x y : Nibble) : Statement (.shl x y) := of_row _ 18 rfl (word4_mask_F00F _ x y _)
theorem sneReg (x y : Nibble) : Statement (.sneReg x y) := of_row _ 19 rfl (word4_mask_F00F _ x y _)
theorem ldI (nnn : Addr12) : Statement (.ldI nnn) := of_row _ 20 rfl (wordNnn_mask _ nnn)
theorem jpVx (x : Nibble) (nnn : Addr12) : Statement (.jpVx x nnn) := of_row _ 21 rfl (wordNnn_mask _ nnn)
theorem rnd (x : Nibble) (kk : Byte) : Statement (.rnd x kk) := of_row _ 22 rfl (wordXkk_mask _ x kk)
theorem drw (x y n : Nibble) : Statement (.drw x y n) := of_row _ 23 rfl (word4_mask_F000 _ x y n)

end Sys2Proof.Laws.RowMatch
end

