-- ==== Sys2Proof/Laws/State.lean ====
section
/-! SUPPORT. What each update of the state does to each field, and the register file's read-after-write laws. -/

namespace Sys2Proof.Machine

variable (s : State)

/-! ## setPc -/
@[simp] theorem setPc_V (a : Word) : (s.setPc a).V = s.V := rfl
@[simp] theorem setPc_I (a : Word) : (s.setPc a).I = s.I := rfl
@[simp] theorem setPc_pc (a : Word) : (s.setPc a).pc = a := rfl
@[simp] theorem setPc_stack (a : Word) : (s.setPc a).stack = s.stack := rfl
@[simp] theorem setPc_sp (a : Word) : (s.setPc a).sp = s.sp := rfl
@[simp] theorem setPc_mem (a : Word) : (s.setPc a).mem = s.mem := rfl
@[simp] theorem setPc_FB (a : Word) : (s.setPc a).FB = s.FB := rfl
@[simp] theorem setPc_status (a : Word) : (s.setPc a).status = s.status := rfl
@[simp] theorem setPc_randPos (a : Word) : (s.setPc a).randPos = s.randPos := rfl

/-! ## setI -/
@[simp] theorem setI_V (a : Word) : (s.setI a).V = s.V := rfl
@[simp] theorem setI_I (a : Word) : (s.setI a).I = a := rfl
@[simp] theorem setI_pc (a : Word) : (s.setI a).pc = s.pc := rfl
@[simp] theorem setI_stack (a : Word) : (s.setI a).stack = s.stack := rfl
@[simp] theorem setI_sp (a : Word) : (s.setI a).sp = s.sp := rfl
@[simp] theorem setI_mem (a : Word) : (s.setI a).mem = s.mem := rfl
@[simp] theorem setI_FB (a : Word) : (s.setI a).FB = s.FB := rfl
@[simp] theorem setI_status (a : Word) : (s.setI a).status = s.status := rfl
@[simp] theorem setI_randPos (a : Word) : (s.setI a).randPos = s.randPos := rfl

/-! ## setFB -/
@[simp] theorem setFB_V (fb : Framebuffer) : (s.setFB fb).V = s.V := rfl
@[simp] theorem setFB_I (fb : Framebuffer) : (s.setFB fb).I = s.I := rfl
@[simp] theorem setFB_pc (fb : Framebuffer) : (s.setFB fb).pc = s.pc := rfl
@[simp] theorem setFB_stack (fb : Framebuffer) : (s.setFB fb).stack = s.stack := rfl
@[simp] theorem setFB_sp (fb : Framebuffer) : (s.setFB fb).sp = s.sp := rfl
@[simp] theorem setFB_mem (fb : Framebuffer) : (s.setFB fb).mem = s.mem := rfl
@[simp] theorem setFB_FB (fb : Framebuffer) : (s.setFB fb).FB = fb := rfl
@[simp] theorem setFB_status (fb : Framebuffer) : (s.setFB fb).status = s.status := rfl
@[simp] theorem setFB_randPos (fb : Framebuffer) : (s.setFB fb).randPos = s.randPos := rfl

/-! ## setMem -/
@[simp] theorem setMem_V (m : Memory) : (s.setMem m).V = s.V := rfl
@[simp] theorem setMem_I (m : Memory) : (s.setMem m).I = s.I := rfl
@[simp] theorem setMem_pc (m : Memory) : (s.setMem m).pc = s.pc := rfl
@[simp] theorem setMem_stack (m : Memory) : (s.setMem m).stack = s.stack := rfl
@[simp] theorem setMem_sp (m : Memory) : (s.setMem m).sp = s.sp := rfl
@[simp] theorem setMem_mem (m : Memory) : (s.setMem m).mem = m := rfl
@[simp] theorem setMem_FB (m : Memory) : (s.setMem m).FB = s.FB := rfl
@[simp] theorem setMem_status (m : Memory) : (s.setMem m).status = s.status := rfl
@[simp] theorem setMem_randPos (m : Memory) : (s.setMem m).randPos = s.randPos := rfl

/-! ## setStatus -/
@[simp] theorem setStatus_V (r : RunStatus) : (s.setStatus r).V = s.V := rfl
@[simp] theorem setStatus_I (r : RunStatus) : (s.setStatus r).I = s.I := rfl
@[simp] theorem setStatus_pc (r : RunStatus) : (s.setStatus r).pc = s.pc := rfl
@[simp] theorem setStatus_stack (r : RunStatus) : (s.setStatus r).stack = s.stack := rfl
@[simp] theorem setStatus_sp (r : RunStatus) : (s.setStatus r).sp = s.sp := rfl
@[simp] theorem setStatus_mem (r : RunStatus) : (s.setStatus r).mem = s.mem := rfl
@[simp] theorem setStatus_FB (r : RunStatus) : (s.setStatus r).FB = s.FB := rfl
@[simp] theorem setStatus_status (r : RunStatus) : (s.setStatus r).status = r := rfl
@[simp] theorem setStatus_randPos (r : RunStatus) : (s.setStatus r).randPos = s.randPos := rfl

/-! ## setStack -/
@[simp] theorem setStack_V (st : Vector Word 16) (k : Fin 17) : (s.setStack st k).V = s.V := rfl
@[simp] theorem setStack_I (st : Vector Word 16) (k : Fin 17) : (s.setStack st k).I = s.I := rfl
@[simp] theorem setStack_pc (st : Vector Word 16) (k : Fin 17) : (s.setStack st k).pc = s.pc := rfl
@[simp] theorem setStack_stack (st : Vector Word 16) (k : Fin 17) : (s.setStack st k).stack = st := rfl
@[simp] theorem setStack_sp (st : Vector Word 16) (k : Fin 17) : (s.setStack st k).sp = k := rfl
@[simp] theorem setStack_mem (st : Vector Word 16) (k : Fin 17) : (s.setStack st k).mem = s.mem := rfl
@[simp] theorem setStack_FB (st : Vector Word 16) (k : Fin 17) : (s.setStack st k).FB = s.FB := rfl
@[simp] theorem setStack_status (st : Vector Word 16) (k : Fin 17) : (s.setStack st k).status = s.status := rfl
@[simp] theorem setStack_randPos (st : Vector Word 16) (k : Fin 17) : (s.setStack st k).randPos = s.randPos := rfl

/-! ## setRandPos -/
@[simp] theorem setRandPos_V (n : Nat) : (s.setRandPos n).V = s.V := rfl
@[simp] theorem setRandPos_I (n : Nat) : (s.setRandPos n).I = s.I := rfl
@[simp] theorem setRandPos_pc (n : Nat) : (s.setRandPos n).pc = s.pc := rfl
@[simp] theorem setRandPos_stack (n : Nat) : (s.setRandPos n).stack = s.stack := rfl
@[simp] theorem setRandPos_sp (n : Nat) : (s.setRandPos n).sp = s.sp := rfl
@[simp] theorem setRandPos_mem (n : Nat) : (s.setRandPos n).mem = s.mem := rfl
@[simp] theorem setRandPos_FB (n : Nat) : (s.setRandPos n).FB = s.FB := rfl
@[simp] theorem setRandPos_status (n : Nat) : (s.setRandPos n).status = s.status := rfl
@[simp] theorem setRandPos_randPos (n : Nat) : (s.setRandPos n).randPos = n := rfl

/-! ## writeV -/
@[simp] theorem writeV_V (r : Nibble) (b : Byte) : (s.writeV r b).V = s.V.set r.toNat b r.isLt := rfl
@[simp] theorem writeV_I (r : Nibble) (b : Byte) : (s.writeV r b).I = s.I := rfl
@[simp] theorem writeV_pc (r : Nibble) (b : Byte) : (s.writeV r b).pc = s.pc := rfl
@[simp] theorem writeV_stack (r : Nibble) (b : Byte) : (s.writeV r b).stack = s.stack := rfl
@[simp] theorem writeV_sp (r : Nibble) (b : Byte) : (s.writeV r b).sp = s.sp := rfl
@[simp] theorem writeV_mem (r : Nibble) (b : Byte) : (s.writeV r b).mem = s.mem := rfl
@[simp] theorem writeV_FB (r : Nibble) (b : Byte) : (s.writeV r b).FB = s.FB := rfl
@[simp] theorem writeV_status (r : Nibble) (b : Byte) : (s.writeV r b).status = s.status := rfl
@[simp] theorem writeV_randPos (r : Nibble) (b : Byte) : (s.writeV r b).randPos = s.randPos := rfl

/-! ## advance -/
@[simp] theorem advance_V : (s.advance).V = s.V := rfl
@[simp] theorem advance_I : (s.advance).I = s.I := rfl
@[simp] theorem advance_pc : (s.advance).pc = s.pc + 2#16 := rfl
@[simp] theorem advance_stack : (s.advance).stack = s.stack := rfl
@[simp] theorem advance_sp : (s.advance).sp = s.sp := rfl
@[simp] theorem advance_mem : (s.advance).mem = s.mem := rfl
@[simp] theorem advance_FB : (s.advance).FB = s.FB := rfl
@[simp] theorem advance_status : (s.advance).status = s.status := rfl
@[simp] theorem advance_randPos : (s.advance).randPos = s.randPos := rfl

/-! ## raise -/
@[simp] theorem raise_V (r : FaultReason) : (raise r s).V = s.V := rfl
@[simp] theorem raise_I (r : FaultReason) : (raise r s).I = s.I := rfl
@[simp] theorem raise_pc (r : FaultReason) : (raise r s).pc = s.pc := rfl
@[simp] theorem raise_stack (r : FaultReason) : (raise r s).stack = s.stack := rfl
@[simp] theorem raise_sp (r : FaultReason) : (raise r s).sp = s.sp := rfl
@[simp] theorem raise_mem (r : FaultReason) : (raise r s).mem = s.mem := rfl
@[simp] theorem raise_FB (r : FaultReason) : (raise r s).FB = s.FB := rfl
@[simp] theorem raise_status (r : FaultReason) : (raise r s).status = .faulted r := rfl
@[simp] theorem raise_randPos (r : FaultReason) : (raise r s).randPos = s.randPos := rfl

/-! ## halt -/
@[simp] theorem halt_V : (halt s).V = s.V := rfl
@[simp] theorem halt_I : (halt s).I = s.I := rfl
@[simp] theorem halt_pc : (halt s).pc = s.pc := rfl
@[simp] theorem halt_stack : (halt s).stack = s.stack := rfl
@[simp] theorem halt_sp : (halt s).sp = s.sp := rfl
@[simp] theorem halt_mem : (halt s).mem = s.mem := rfl
@[simp] theorem halt_FB : (halt s).FB = s.FB := rfl
@[simp] theorem halt_status : (halt s).status = .halted := rfl
@[simp] theorem halt_randPos : (halt s).randPos = s.randPos := rfl

/-! ## clearDisplay -/
@[simp] theorem clearDisplay_V : (clearDisplay s).V = s.V := rfl
@[simp] theorem clearDisplay_I : (clearDisplay s).I = s.I := rfl
@[simp] theorem clearDisplay_pc : (clearDisplay s).pc = s.pc := rfl
@[simp] theorem clearDisplay_stack : (clearDisplay s).stack = s.stack := rfl
@[simp] theorem clearDisplay_sp : (clearDisplay s).sp = s.sp := rfl
@[simp] theorem clearDisplay_mem : (clearDisplay s).mem = s.mem := rfl
@[simp] theorem clearDisplay_FB : (clearDisplay s).FB = Framebuffer.cleared := rfl
@[simp] theorem clearDisplay_status : (clearDisplay s).status = s.status := rfl
@[simp] theorem clearDisplay_randPos : (clearDisplay s).randPos = s.randPos := rfl

/-! ## Reading a register after an update -/

@[simp] theorem readV_setPc (a : Word) (r : Nibble) : (s.setPc a).readV r = s.readV r := rfl
@[simp] theorem readV_setI (a : Word) (r : Nibble) : (s.setI a).readV r = s.readV r := rfl
@[simp] theorem readV_setFB (fb : Framebuffer) (r : Nibble) : (s.setFB fb).readV r = s.readV r := rfl
@[simp] theorem readV_setMem (m : Memory) (r : Nibble) : (s.setMem m).readV r = s.readV r := rfl
@[simp] theorem readV_setStatus (q : RunStatus) (r : Nibble) : (s.setStatus q).readV r = s.readV r := rfl
@[simp] theorem readV_setStack (st : Vector Word 16) (k : Fin 17) (r : Nibble) :
    (s.setStack st k).readV r = s.readV r := rfl
@[simp] theorem readV_setRandPos (n : Nat) (r : Nibble) : (s.setRandPos n).readV r = s.readV r := rfl
@[simp] theorem readV_advance (r : Nibble) : s.advance.readV r = s.readV r := rfl
@[simp] theorem readV_raise (q : FaultReason) (r : Nibble) : (raise q s).readV r = s.readV r := rfl
@[simp] theorem readV_halt (r : Nibble) : (halt s).readV r = s.readV r := rfl
@[simp] theorem readV_clearDisplay (r : Nibble) : (clearDisplay s).readV r = s.readV r := rfl

/-- A register read after a register write. -/
theorem readV_writeV (x : Nibble) (b : Byte) (r : Nibble) :
    (s.writeV x b).readV r = if r = x then b else s.readV r := by
  simp only [State.readV, State.writeV, Vector.getElem_set, eq_comm (a := r), BitVec.toNat_eq]

@[simp] theorem readV_writeV_self (x : Nibble) (b : Byte) : (s.writeV x b).readV x = b := by
  simp [readV_writeV]

theorem readV_writeV_ne (x : Nibble) (b : Byte) {r : Nibble} (h : r ≠ x) :
    (s.writeV x b).readV r = s.readV r := by
  simp [readV_writeV, h]

/-- Register files that read alike are equal. -/
theorem V_ext {s t : State} (h : ∀ r : Nibble, s.readV r = t.readV r) : s.V = t.V := by
  apply Vector.ext
  intro k hk
  have := h (BitVec.ofNat 4 k)
  simpa [State.readV, Nat.mod_eq_of_lt hk] using this

/-- What `writeResult` leaves in the registers. -/
theorem readV_writeResult (x : Nibble) (b : Byte) (r : Nibble) :
    (writeResult x b s).readV r = if r = x then b else s.readV r := by
  simp [writeResult, readV_writeV]

/-- What `writeResultFlag` leaves in the registers: the flag wins where the destination is VF. -/
theorem readV_writeResultFlag (x : Nibble) (b f : Byte) (r : Nibble) :
    (writeResultFlag x b f s).readV r = if r = 0xF#4 then f else if r = x then b else s.readV r := by
  simp [writeResultFlag, readV_writeV, regF]

/-- `skipIf` moves the pc and nothing else. -/
theorem skipIf_eq (c : Bool) :
    skipIf c s = s.setPc (if c then s.pc + 4#16 else s.pc + 2#16) := by
  cases c <;> simp [skipIf, State.advance, State.setPc, BitVec.add_assoc]

end Sys2Proof.Machine
end

