-- ==== Sys2Proof/Laws/Step.lean ====
section
/-! SUPPORT. What each shared operation of the step can do, said once: range check, fetch, stack, step. -/

namespace Sys2Proof.Machine

/-! ## Range check and reads (20_memory.md R51) -/

theorem outOfRange_eq_none {a n : Nat} : outOfRange a n = none ↔ n = 0 ∨ a + n ≤ 4096 := by
  simp only [outOfRange, Config.memSize]
  split <;> simp <;> omega

theorem outOfRange_eq_some {a n k : Nat} : outOfRange a n = some k ↔ (0 < n ∧ 4096 < a + n) ∧ k = max a 4096 := by
  simp only [outOfRange, Config.memSize]
  split <;> simp_all [eq_comm]

/-- A read inside memory delivers its bytes. -/
theorem memRead_of_le {m : Memory} {a n : Nat} (h : n = 0 ∨ a + n ≤ 4096) :
    memRead m a n = .ok ((List.range n).map fun r => m.byte (a + r)) := by
  simp only [memRead, outOfRange_eq_none.mpr h]

/-- A read that leaves memory delivers the lowest address outside it. -/
theorem memRead_of_gt {m : Memory} {a n : Nat} (h : 0 < n ∧ 4096 < a + n) : memRead m a n = .error (max a 4096) := by
  simp only [memRead, outOfRange_eq_some.mpr ⟨h, rfl⟩]

/-! ## Fetch (30_encoding.md R81) -/

theorem fetch_of_le {s : State} (h : s.pc.toNat ≤ 4094) : fetch s = .ok (opAt s) := by
  simp only [fetch, outOfRange_eq_none.mpr (Or.inr (show s.pc.toNat + 2 ≤ 4096 by omega)), opAt, wordOfBytes]

theorem fetch_of_gt {s : State} (h : 4094 < s.pc.toNat) :
    fetch s = .error (.addressFault s.pc (BitVec.ofNat 16 (max s.pc.toNat 4096)) none) := by
  simp only [fetch, outOfRange_eq_some.mpr ⟨⟨show 0 < 2 by omega, show 4096 < s.pc.toNat + 2 by omega⟩, rfl⟩]

/-- Everything a fetch and decode can answer. -/
theorem fetchDecode_cases (s : State) :
    4094 < s.pc.toNat ∧
        fetchDecode s = .error (.addressFault s.pc (BitVec.ofNat 16 (max s.pc.toNat 4096)) none) ∨
      s.pc.toNat ≤ 4094 ∧ decodeWord (opAt s) = none ∧
        fetchDecode s = .error (.decodeFault (opAt s) s.pc) ∨
      ∃ i, s.pc.toNat ≤ 4094 ∧ decodeWord (opAt s) = some i ∧ fetchDecode s = .ok i := by
  by_cases h : 4094 < s.pc.toNat
  · exact .inl ⟨h, by simp only [fetchDecode, fetch_of_gt h]⟩
  · have h' : s.pc.toNat ≤ 4094 := by omega
    cases hd : decodeWord (opAt s) with
    | none => exact .inr (.inl ⟨h', rfl, by simp only [fetchDecode, fetch_of_le h', hd]⟩)
    | some i => exact .inr (.inr ⟨i, h', rfl, by simp only [fetchDecode, fetch_of_le h', hd]⟩)

/-! ## The call stack (10_state.md R30) -/

theorem push_of_lt {v : Word} {s : State} (h : s.sp.val < 16) :
    push v s = some (s.setStack (s.stack.set s.sp.val v h) ⟨s.sp.val + 1, Nat.succ_lt_succ h⟩) := dif_pos h

theorem push_full {v : Word} {s : State} (h : s.sp.val = 16) : push v s = none :=
  dif_neg (by simp only [Config.stackDepth]; omega)

theorem pop_of_pos {s : State} (h : 0 < s.sp.val) :
    pop s = some (s.stack[s.sp.val - 1]'(by have := s.sp.isLt; omega),
      s.setStack s.stack ⟨s.sp.val - 1, by have := s.sp.isLt; omega⟩) := dif_pos h

theorem pop_empty {s : State} (h : s.sp.val = 0) : pop s = none := dif_neg (by omega)

/-! ## The step (30_encoding.md R86) -/

theorem noStep_eq_none {s : State} : noStep s = none ↔ s.status = .running := by
  simp only [noStep]; split <;> simp_all

/-- A Running machine that fetches a legal word runs its instruction. -/
theorem step_of_ok {s : State} {i : Instr} (hr : s.status = .running) (h : fetchDecode s = .ok i) :
    step s = exec i s := by
  simp only [step, noStep_eq_none.mpr hr, h]

/-- A Running machine whose fetch or decode faults takes that fault. -/
theorem step_of_error {s : State} {r : FaultReason} (hr : s.status = .running) (h : fetchDecode s = .error r) :
    step s = .next (raise r s) := by
  simp only [step, noStep_eq_none.mpr hr, h]

/-- Everything a step that answers a state can have done. -/
theorem step_cases {s t : State} (h : step s = .next t) :
    s.status = .running ∧
      (4094 < s.pc.toNat ∧ t = raise (.addressFault s.pc (BitVec.ofNat 16 (max s.pc.toNat 4096)) none) s ∨
        s.pc.toNat ≤ 4094 ∧ decodeWord (opAt s) = none ∧ t = raise (.decodeFault (opAt s) s.pc) s ∨
        ∃ i, s.pc.toNat ≤ 4094 ∧ decodeWord (opAt s) = some i ∧ exec i s = .next t) := by
  have hr : s.status = .running := by
    cases hn : noStep s with
    | none => exact noStep_eq_none.mp hn
    | some f => simp [step, hn] at h
  refine ⟨hr, ?_⟩
  rcases fetchDecode_cases s with ⟨hp, hf⟩ | ⟨hp, hd, hf⟩ | ⟨i, hp, hd, hf⟩
  · rw [step_of_error hr hf] at h; cases h; exact .inl ⟨hp, rfl⟩
  · rw [step_of_error hr hf] at h; cases h; exact .inr (.inl ⟨hp, hd, rfl⟩)
  · rw [step_of_ok hr hf] at h; exact .inr (.inr ⟨i, hp, hd, h⟩)

end Sys2Proof.Machine
end

