-- ==== Sys2Proof/Tests/Slice0.lean ====
section
/-! SUPPORT. Tests: expected results are those of spec/95_test_vectors.md (its ids are cited) or of the rules' own
examples; then one witness for every statement that has hypotheses. -/

namespace Sys2Proof.Tests

open Sys2Proof.Machine

/-! ## Well-formedness and decoding -/

theorem test_wf_refuses_jpVx_of_another_register : Instr.wellFormed (.jpVx 2#4 0x30A#12) = false := by decide
theorem test_wf_accepts_jpVx_of_its_register : Instr.wellFormed (.jpVx 3#4 0x30A#12) = true := by decide

theorem test_decode_halt : decodeWord 0x0000#16 = some .halt := by decide
theorem test_decode_cls : decodeWord 0x00E0#16 = some .cls := by decide
theorem test_decode_ret : decodeWord 0x00EE#16 = some .ret := by decide
theorem test_decode_jp : decodeWord 0b0001101010111100#16 = some (.jp 0xABC#12) := by decide
theorem test_decode_call : decodeWord 0b0010001100000000#16 = some (.call 0x300#12) := by decide
theorem test_decode_seImm : decodeWord 0b0011101000000101#16 = some (.seImm 0xA#4 0x05#8) := by decide
theorem test_decode_sneImm : decodeWord 0b0100101000000101#16 = some (.sneImm 0xA#4 0x05#8) := by decide
theorem test_decode_seReg : decodeWord 0b0101000100100000#16 = some (.seReg 1#4 2#4) := by decide
theorem test_decode_ldImm : decodeWord 0b0110101001011100#16 = some (.ldImm 0xA#4 0x5C#8) := by decide
theorem test_decode_addImm : decodeWord 0b0111111100000001#16 = some (.addImm 0xF#4 0x01#8) := by decide
theorem test_decode_ldReg : decodeWord 0b1000000100100000#16 = some (.ldReg 1#4 2#4) := by decide
theorem test_decode_orReg : decodeWord 0b1000000100100001#16 = some (.orReg 1#4 2#4) := by decide
theorem test_decode_andReg : decodeWord 0b1000000100100010#16 = some (.andReg 1#4 2#4) := by decide
theorem test_decode_xorReg : decodeWord 0b1000000100100011#16 = some (.xorReg 1#4 2#4) := by decide
theorem test_decode_addReg : decodeWord 0b1000000100100100#16 = some (.addReg 1#4 2#4) := by decide
theorem test_decode_sub : decodeWord 0b1000000100100101#16 = some (.sub 1#4 2#4) := by decide
theorem test_decode_shr : decodeWord 0b1000000100100110#16 = some (.shr 1#4 2#4) := by decide
theorem test_decode_subn : decodeWord 0b1000000100100111#16 = some (.subn 1#4 2#4) := by decide
theorem test_decode_shl : decodeWord 0b1000000100101110#16 = some (.shl 1#4 2#4) := by decide
theorem test_decode_sneReg : decodeWord 0b1001000100100000#16 = some (.sneReg 1#4 2#4) := by decide
theorem test_decode_ldI : decodeWord 0b1010000100100011#16 = some (.ldI 0x123#12) := by decide
theorem test_decode_jpVx : decodeWord 0b1011001100001010#16 = some (.jpVx 3#4 0x30A#12) := by decide
theorem test_decode_rnd : decodeWord 0b1100001100001111#16 = some (.rnd 3#4 0x0F#8) := by decide
theorem test_decode_drw : decodeWord 0b1101000000011111#16 = some (.drw 0#4 1#4 0xF#4) := by decide
/-- T-D-E2 to T-D-E6. -/
theorem test_illegal_words :
    [0x5121#16, 0x9AB7#16, 0x8128#16, 0x812F#16, 0x812D#16, 0x0123#16, 0x00E1#16, 0x00FF#16, 0x0FFF#16, 0xE09E#16,
      0xFFFF#16, 0xF00A#16].all (fun w => decodeWord w == none) = true := by decide
theorem test_decodeBytes_refuses_by_name :
    (match decodeBytes [0xF0#8, 0x0A#8] with | .error e => e == .unimplementedOpcode 0xF00A#16 | .ok _ => false) = true ∧
    (match decodeBytes [0x60#8] with | .error e => e == .truncated | .ok _ => false) = true := by decide
theorem test_table_word : decodeTableWord 16 0x8014 = some (.addReg 0#4 1#4) := by decide

/-! ## One step on a small state -/

/-- The state after one step that runs the word `w` from `s`. -/
def after (w : Nat) (s : State) : State :=
  match step (s.withFetchWord 16 w) with
  | .next t => t
  | .fault _ => s
  | .refused _ => s

/-- The reset state with two registers set. -/
def with2 (x : Nibble) (a : Byte) (y : Nibble) (b : Byte) : State := (State.reset.writeV x a).writeV y b

/-- The reset state with I = 0x300 and two sprite bytes there. -/
def sprite (a b : Byte) : State :=
  (State.reset.setI 0x300#16).setMem (Memory.writeBytes [] 0x300 [a, b])

/-- T-F-2, T-C-1: HALT at 0xFFE. -/
theorem test_halt : (after 0x0000 (State.reset.setPc 0xFFE#16)).status = .halted ∧
    (after 0x0000 (State.reset.setPc 0xFFE#16)).pc = 0x1000#16 := by decide
/-- T-F-3, T-F-5. -/
theorem test_fetch_fault :
    (match step (State.reset.setPc 0xFFF#16) with
      | .next t => t.status == .faulted (.addressFault 0xFFF#16 0x1000#16 none) && t.pc == 0xFFF#16 | _ => false) = true ∧
    (match step (State.reset.setPc 0x10FE#16) with
      | .next t => t.status == .faulted (.addressFault 0x10FE#16 0x10FE#16 none) | _ => false) = true := by decide
/-- T-F-6: an odd pc. -/
theorem test_odd_pc : (after 0x6007 (State.reset.setPc 0x201#16)).readV 0#4 = 0x07#8 ∧
    (after 0x6007 (State.reset.setPc 0x201#16)).pc = 0x203#16 := by decide
/-- T-D-E1. -/
theorem test_decode_fault : (after 0xF00A State.reset).status = .faulted (.decodeFault 0xF00A#16 0x200#16) ∧
    (after 0xF00A State.reset).pc = 0x200#16 := by decide
/-- A Halted machine has no step (R80). -/
theorem test_no_step : (match step (State.reset.setStatus .halted) with | .fault f => f == .noStepHalted | _ => false) =
    true := by decide
/-- T-C-2 on one pixel. -/
theorem test_cls : (after 0x00E0 (State.reset.setFB (State.reset.FB.setPixel 5 6 true))).FB.pixel 5 6 = false := by decide
/-- T-C-6. -/
theorem test_ret_underflow : (after 0x00EE State.reset).status = .faulted (.stackUnderflow 0x00EE#16 0x200#16) ∧
    (after 0x00EE State.reset).pc = 0x200#16 := by decide
/-- T-C-7. -/
theorem test_ret : (after 0x00EE (State.reset.setStack (State.reset.stack.set 0 0x202#16) 1)).pc = 0x202#16 ∧
    (after 0x00EE (State.reset.setStack (State.reset.stack.set 0 0x202#16) 1)).sp = 0 := by decide
/-- T-C-3, T-C-4. -/
theorem test_jp : (after 0x1ABC State.reset).pc = 0xABC#16 ∧ (after 0x1201 State.reset).pc = 0x201#16 := by decide
/-- T-C-8. -/
theorem test_call : (after 0x2300 State.reset).pc = 0x300#16 ∧ (after 0x2300 State.reset).sp = 1 ∧
    (after 0x2300 State.reset).stack[0] = 0x202#16 := by decide
/-- T-C-10. -/
theorem test_call_overflow :
    (after 0x2600 ((State.reset.setStack State.reset.stack 16).setPc 0x500#16)).status =
      .faulted (.stackOverflow 0x2600#16 0x500#16) ∧
    (after 0x2600 ((State.reset.setStack State.reset.stack 16).setPc 0x500#16)).pc = 0x500#16 := by decide
/-- T-C-12, T-C-13: V0 is not used, the sum is not truncated. -/
theorem test_jpVx : (after 0xB300 (with2 0#4 0x10#8 3#4 0x00#8)).pc = 0x300#16 ∧
    (after 0xBFFF (with2 0#4 0x10#8 0xF#4 0xFF#8)).pc = 0x10FE#16 := by decide
/-- T-C-14, T-C-15. -/
theorem test_seImm : (after 0x3005 (with2 0#4 5#8 1#4 0#8)).pc = 0x204#16 ∧
    (after 0x3006 (with2 0#4 5#8 1#4 0#8)).pc = 0x202#16 := by decide
/-- T-C-16, T-C-17. -/
theorem test_sneImm : (after 0x4005 (with2 0#4 5#8 1#4 0#8)).pc = 0x202#16 ∧
    (after 0x4006 (with2 0#4 5#8 1#4 0#8)).pc = 0x204#16 := by decide
/-- T-C-18. -/
theorem test_seReg : (after 0x5120 (with2 1#4 0x33#8 2#4 0x33#8)).pc = 0x204#16 := by decide
/-- T-C-20, T-C-21. -/
theorem test_sneReg : (after 0x9120 (with2 1#4 0x33#8 2#4 0x34#8)).pc = 0x204#16 ∧
    (after 0x9120 (with2 1#4 0x33#8 2#4 0x33#8)).pc = 0x202#16 := by decide
/-- T-A-1. -/
theorem test_ldImm : (after 0x6A5C State.reset).readV 0xA#4 = 0x5C#8 := by decide
/-- T-A-3. -/
theorem test_addImm : (after 0x7001 (with2 0#4 0xFF#8 0xF#4 0x07#8)).readV 0#4 = 0x00#8 ∧
    (after 0x7001 (with2 0#4 0xFF#8 0xF#4 0x07#8)).readV 0xF#4 = 0x07#8 := by decide
/-- T-A-5. -/
theorem test_ldReg : (after 0x8010 (with2 0#4 0x00#8 1#4 0xAA#8)).readV 0#4 = 0xAA#8 := by decide
/-- T-A-6 to T-A-8. -/
theorem test_bitwise : (after 0x8011 (with2 0#4 0xF0#8 1#4 0x0F#8)).readV 0#4 = 0xFF#8 ∧
    (after 0x8012 (with2 0#4 0xF0#8 1#4 0x3C#8)).readV 0#4 = 0x30#8 ∧
    (after 0x8013 (with2 0#4 0xF0#8 1#4 0x3C#8)).readV 0#4 = 0xCC#8 := by decide
/-- T-A-11, T-A-12. -/
theorem test_addReg : (after 0x8014 (with2 0#4 0x80#8 1#4 0x7F#8)).readV 0xF#4 = 0x00#8 ∧
    (after 0x8014 (with2 0#4 0x80#8 1#4 0x80#8)).readV 0xF#4 = 0x01#8 ∧
    (after 0x8014 (with2 0#4 0x80#8 1#4 0x80#8)).readV 0#4 = 0x00#8 := by decide
/-- T-A-13, T-A-18: the flag wins where the destination is VF. -/
theorem test_flag_wins : (after 0x8F14 (with2 0xF#4 0x80#8 1#4 0x90#8)).readV 0xF#4 = 0x01#8 ∧
    (after 0x8F15 (with2 0xF#4 0x05#8 1#4 0x03#8)).readV 0xF#4 = 0x01#8 := by decide
/-- T-A-15, T-A-16. -/
theorem test_sub : (after 0x8015 (with2 0#4 3#8 1#4 5#8)).readV 0#4 = 0xFE#8 ∧
    (after 0x8015 (with2 0#4 3#8 1#4 5#8)).readV 0xF#4 = 0x00#8 ∧
    (after 0x8015 (with2 0#4 5#8 1#4 5#8)).readV 0xF#4 = 0x01#8 := by decide
/-- T-A-19, T-A-20. -/
theorem test_shr : (after 0x8016 (with2 0#4 5#8 1#4 0#8)).readV 0xF#4 = 0x01#8 ∧
    (after 0x8016 (with2 0#4 4#8 1#4 7#8)).readV 0#4 = 0x02#8 := by decide
/-- T-A-23, T-A-24. -/
theorem test_subn : (after 0x8017 (with2 0#4 3#8 1#4 5#8)).readV 0#4 = 0x02#8 ∧
    (after 0x8017 (with2 0#4 5#8 1#4 3#8)).readV 0xF#4 = 0x00#8 := by decide
/-- T-A-26, T-A-27. -/
theorem test_shl : (after 0x800E (with2 0#4 0x81#8 1#4 0#8)).readV 0#4 = 0x02#8 ∧
    (after 0x800E (with2 0#4 0x81#8 1#4 0#8)).readV 0xF#4 = 0x01#8 ∧
    (after 0x800E (with2 0#4 0x40#8 1#4 0#8)).readV 0xF#4 = 0x00#8 := by decide
/-- T-A-30. -/
theorem test_ldI : (after 0xA123 State.reset).I = 0x123#16 := by decide
/-- T-A-32 with the free byte: V3 = r & 0F, and one byte is consumed. -/
theorem test_rnd : (after 0xC30F State.reset).readV 3#4 = Config.randByte 0 &&& 0x0F#8 ∧
    (after 0xC30F State.reset).randPos = 1 := ⟨rfl, rfl⟩
/-- T-D-3: the first two bits are drawn at columns 62 and 63, the rest is clipped. -/
theorem test_drw_clips : (after 0xD011 ((sprite 0xFF#8 0#8).writeV 0#4 62#8)).FB.pixel 63 0 = true ∧
    (after 0xD011 ((sprite 0xFF#8 0#8).writeV 0#4 62#8)).FB.pixel 0 0 = false ∧
    (after 0xD011 ((sprite 0xFF#8 0#8).writeV 0#4 62#8)).readV 0xF#4 = 0#8 := by decide
/-- T-D-8: a collision. -/
theorem test_drw_collides :
    (after 0xD011 ((sprite 0xC0#8 0#8).setFB (State.reset.FB.setPixel 1 0 true))).FB.pixel 1 0 = false ∧
    (after 0xD011 ((sprite 0xC0#8 0#8).setFB (State.reset.FB.setPixel 1 0 true))).FB.pixel 0 0 = true ∧
    (after 0xD011 ((sprite 0xC0#8 0#8).setFB (State.reset.FB.setPixel 1 0 true))).readV 0xF#4 = 1#8 := by decide
/-- T-D-10: the sprite leaves memory, VF keeps its value. -/
theorem test_drw_fault :
    (after 0xD012 ((State.reset.setI 0xFFF#16).writeV 0xF#4 7#8)).status =
      .faulted (.addressFault 0x200#16 0x1000#16 (some 0xD012#16)) ∧
    (after 0xD012 ((State.reset.setI 0xFFF#16).writeV 0xF#4 7#8)).readV 0xF#4 = 7#8 := by decide
/-- R232, R233. -/
theorem test_loader : (match loadImage [0x12#8, 0x34#8] with | .ok m => m.read 0x201 == some 0x34#8 | .error _ => false) =
    true ∧ (match loadImage [] with | .error e => e == .emptyImage | .ok _ => false) = true := by decide

/-! ## Witnesses: every statement's hypotheses can be met -/

theorem witness_DecodeOfEncodeIsTheInstruction : ∃ i : Instr, i.wellFormed = true := ⟨.jpVx 3#4 0x30A#12, by decide⟩
theorem witness_EncodeOfDecodeIsTheWord : ∃ op i, decodeWord op = some i := ⟨0x8014#16, .addReg 0#4 1#4, by decide⟩
theorem witness_DecoderFollowsTheOpcodeMap :
    (∃ op, ∃ row ∈ opcodeTable, op &&& row.mask = row.pattern) ∧
    (∃ op : Word, ∀ row ∈ opcodeTable, op &&& row.mask ≠ row.pattern) :=
  ⟨⟨0x00EE#16, opcodeTable[2], by decide, by decide⟩, ⟨0xF00A#16, by decide⟩⟩
theorem witness_NoWordSelectsTwoRows : ∃ (op : Word), ∃ row ∈ opcodeTable, ∃ row' ∈ opcodeTable,
    op &&& row.mask = row.pattern ∧ op &&& row'.mask = row'.pattern :=
  ⟨0x00EE#16, opcodeTable[2], by decide, opcodeTable[2], by decide, by decide, by decide⟩
theorem witness_DecodedOperandsAreTheFields : ∃ op i, decodeWord op = some i :=
  ⟨0xD01F#16, .drw 0#4 1#4 0xF#4, by decide⟩

/-- The reset state with a word at 0x200. -/
def at200 (w : Nat) : State := State.reset.withFetchWord 16 w

theorem witness_StepRunsTheDecodedInstruction : ∃ (s : State) (i : Instr) (hi lo : Byte), s.status = .running ∧
    s.mem.read s.pc.toNat = some hi ∧ s.mem.read (s.pc.toNat + 1) = some lo ∧ decodeWord (hi ++ lo) = some i :=
  ⟨at200 0x8014, .addReg 0#4 1#4, 0x80#8, 0x14#8, by decide, by decide, by decide, by decide⟩
theorem witness_StepRunsThePlacedWord : ∃ (s : State) (w : Nat) (i : Instr), s.mem.wf ∧ decodeTableWord 16 w = some i ∧
    s.pc.toNat ≤ 4094 := ⟨State.reset, 0x8014, .addReg 0#4 1#4, wf_nil, by decide, by decide⟩
theorem witness_FetchReadsTwoBytesOrFaults :
    (∃ (s : State) (hi lo : Byte), s.pc = 0xFFE#16 ∧ s.mem.read s.pc.toNat = some hi ∧
      s.mem.read (s.pc.toNat + 1) = some lo) ∧
    (∃ s : State, s.pc = 0xFFF#16 ∧ s.status = .running ∧ s.pc.toNat + 1 ≥ 4096) :=
  ⟨⟨State.reset.setPc 0xFFE#16, 0#8, 0#8, by decide, by decide, by decide⟩,
    ⟨State.reset.setPc 0xFFF#16, by decide, by decide, by decide⟩⟩
theorem witness_UnmatchedWordRaisesDecodeFault : ∃ (s : State) (hi lo : Byte), s.status = .running ∧
    s.mem.read s.pc.toNat = some hi ∧ s.mem.read (s.pc.toNat + 1) = some lo ∧
    ∀ row ∈ opcodeTable, (hi ++ lo : Word) &&& row.mask ≠ row.pattern :=
  ⟨at200 0xF00A, 0xF0#8, 0x0A#8, by decide, by decide, by decide, by decide⟩
theorem witness_StepExistsExactlyFromRunning : (∃ s : State, s.status = .halted) ∧
    ∃ (s : State) (r : FaultReason), s.status = .faulted r :=
  ⟨⟨State.reset.setStatus .halted, rfl⟩,
    ⟨State.reset.setStatus (.faulted (.decodeFault 0xF00A#16 0x200#16)), .decodeFault 0xF00A#16 0x200#16, rfl⟩⟩
theorem witness_FaultingStepCommitsNothing : ∃ (s t : State) (r : FaultReason), step s = .next t ∧
    t.status = .faulted r := ⟨at200 0xF00A, _, .decodeFault 0xF00A#16 0x200#16, rfl, rfl⟩
/-- One state for each of the five faults, at the boundary of its condition. -/
theorem witness_StepFaultsExactlyWhen :
    (∃ s : State, s.status = .running ∧ s.pc.toNat = 4095) ∧
    (∃ s : State, s.status = .running ∧ s.pc.toNat = 4094 ∧ decodeWord (opAt s) = none) ∧
    (∃ (s : State) (nnn : Addr12), s.status = .running ∧ s.pc.toNat = 4094 ∧ s.sp.val = 16 ∧
      decodeWord (opAt s) = some (.call nnn)) ∧
    (∃ s : State, s.status = .running ∧ s.pc.toNat = 4094 ∧ s.sp.val = 0 ∧ decodeWord (opAt s) = some .ret) ∧
    (∃ (s : State) (x y n : Nibble), s.status = .running ∧ s.pc.toNat = 4094 ∧
      decodeWord (opAt s) = some (.drw x y n) ∧ n.toNat = 1 ∧ s.I.toNat + n.toNat = 4097) :=
  ⟨⟨State.reset.setPc 4095#16, by decide, by decide⟩,
    ⟨(State.reset.setPc 4094#16).withFetchWord 16 0xFFFF, by decide, by decide, by decide⟩,
    ⟨((State.reset.setPc 4094#16).setStack State.reset.stack 16).withFetchWord 16 0x2300, 0x300#12,
      by decide, by decide, by decide, by decide⟩,
    ⟨(State.reset.setPc 4094#16).withFetchWord 16 0x00EE, by decide, by decide, by decide, by decide⟩,
    ⟨((State.reset.setPc 4094#16).setI 4096#16).withFetchWord 16 0xD011, 0#4, 1#4, 1#4,
      by decide, by decide, by decide, by decide, by decide⟩⟩
theorem witness_RetPopsOrUnderflows : (∃ s : State, s.sp = Fin.succ (0 : Fin 16)) ∧
    (∃ s : State, s.sp = Fin.succ (15 : Fin 16)) ∧ ∃ s : State, s.sp = 0 :=
  ⟨⟨State.reset.setStack State.reset.stack 1, by decide⟩, ⟨State.reset.setStack State.reset.stack 16, by decide⟩,
    ⟨State.reset, by decide⟩⟩
theorem witness_CallPushesOrOverflows : (∃ s : State, s.sp = Fin.castSucc (0 : Fin 16)) ∧
    (∃ s : State, s.sp = Fin.castSucc (15 : Fin 16)) ∧ ∃ s : State, s.sp = 16 :=
  ⟨⟨State.reset, by decide⟩, ⟨State.reset.setStack State.reset.stack 15, by decide⟩,
    ⟨State.reset.setStack State.reset.stack 16, by decide⟩⟩
/-- A taken skip at 0xFFE, and one at 0x200 over a word another memory changes. -/
theorem witness_TakenSkipIgnoresTheNextWord :
    (∃ (s : State) (i : Instr) (m : Memory), s.status = .running ∧ s.pc = 0xFFE#16 ∧ s.pc.toNat ≤ 4094 ∧
      decodeWord (opAt s) = some i ∧ skipTaken i s = true ∧
      ∀ a, a ≠ s.pc.toNat + 2 → a ≠ s.pc.toNat + 3 → m.byte a = s.mem.byte a) ∧
    (∃ (s : State) (i : Instr) (m : Memory), s.status = .running ∧ s.pc.toNat ≤ 4094 ∧
      decodeWord (opAt s) = some i ∧ skipTaken i s = true ∧ m ≠ s.mem ∧
      ∀ a, a ≠ s.pc.toNat + 2 → a ≠ s.pc.toNat + 3 → m.byte a = s.mem.byte a) :=
  ⟨⟨(State.reset.setPc 0xFFE#16).withFetchWord 16 0x3000, .seImm 0#4 0#8, _, by decide, by decide, by decide, by decide,
      by decide, fun _ _ _ => rfl⟩,
    ⟨at200 0x3000, .seImm 0#4 0#8, (at200 0x3000).mem.write 0x202 0xFF#8, by decide, by decide, by decide, by decide,
      by decide, fun a h _ => (byte_write (m := (at200 0x3000).mem) (a := 0x202) (by decide) (by decide) a).trans
        (if_neg (show ¬ a = 0x202 from h))⟩⟩
/-- CALL 0x300 at 0x200 and RET at 0x300. -/
theorem witness_CallThenReturnRestores : ∃ (s : State) (nnn : Addr12) (k : Fin 16), s.status = .running ∧
    s.pc.toNat ≤ 4094 ∧ s.sp = k.castSucc ∧ opAt s = 0x2#4 ++ nnn ∧ nnn.toNat ≤ 4094 ∧
    opAt { s with pc := 0#4 ++ nnn } = 0x00EE#16 :=
  ⟨(State.reset.setMem (Memory.storeWord [] 0x300 0x00EE#16)).withFetchWord 16 0x2300, 0x300#12, 0,
    by decide, by decide, by decide, by decide, by decide, by decide⟩
theorem witness_SeventeenthCallOverflows : (∃ s : State, s.sp = 16) ∧
    ∃ (s : State) (targets : List Addr12), s.sp = 0 ∧ targets.length = 16 :=
  ⟨⟨State.reset.setStack State.reset.stack 16, rfl⟩, ⟨State.reset, List.replicate 16 0x200#12, by decide, by decide⟩⟩
theorem witness_ArithmeticNeverFaults : isArithmetic (.rnd 3#4 0x0F#8) = true := by decide
/-- The last byte of memory is the sprite's last byte; and no bytes at all, I far outside. -/
theorem witness_DrwXorsTheClippedSprite : (∃ (s : State) (n : Nibble), n.toNat = 15 ∧ s.I.toNat + n.toNat = 4096) ∧
    ∃ (s : State) (n : Nibble), n.toNat = 0 ∧ s.I = 0xFFFF#16 :=
  ⟨⟨State.reset.setI 0xFF1#16, 15#4, by decide, by decide⟩, ⟨State.reset.setI 0xFFFF#16, 0#4, by decide, by decide⟩⟩
theorem witness_DrwOutsideMemoryFaults : ∃ (s : State) (n : Nibble), 0 < n.toNat ∧ s.I.toNat + n.toNat = 4097 :=
  ⟨State.reset.setI 0xFF2#16, 15#4, by decide, by decide⟩
theorem witness_DrawingTwiceRestores : ∃ (x y n : Nibble) (s t u : State),
    s.I.toNat + n.toNat ≤ 4096 ∧ exec (.drw x y n) s = .next t ∧ u.FB = t.FB ∧ u.I = s.I ∧ u.readV x = s.readV x ∧
    u.readV y = s.readV y ∧ ∀ k < n.toNat, u.mem.byte (s.I.toNat + k) = s.mem.byte (s.I.toNat + k) :=
  ⟨0#4, 1#4, 1#4, sprite 0xF0#8 0x00#8, _, _, by decide, rfl, rfl, rfl, by decide, by decide, fun _ _ => rfl⟩
/-- Each instruction of the flag table completes; the first four leave x other than F. -/
theorem witness_FlagTable : ∃ (s : State) (x y n : Nibble) (kk : Byte) (nnn : Addr12),
    (∃ t, exec (.addReg x y) s = .next t) ∧ (∃ t, exec (.sub x y) s = .next t) ∧ (∃ t, exec (.shr x y) s = .next t) ∧
    (∃ t, exec (.subn x y) s = .next t) ∧ (∃ t, exec (.shl x y) s = .next t) ∧
    (s.I.toNat + n.toNat ≤ 4096 ∧ ∃ t, exec (.drw x y n) s = .next t) ∧
    (x ≠ 0xF#4 ∧ ∃ t, exec (.rnd x kk) s = .next t) ∧ (∃ t, exec (.ldI nnn) s = .next t) :=
  ⟨sprite 0xF0#8 0x00#8, 0#4, 1#4, 1#4, 0x0F#8, 0x300#12, ⟨_, rfl⟩, ⟨_, rfl⟩, ⟨_, rfl⟩, ⟨_, rfl⟩, ⟨_, rfl⟩,
    ⟨by decide, _, rfl⟩, ⟨by decide, _, rfl⟩, ⟨_, rfl⟩⟩
theorem witness_PcTable : ∃ (s : State) (i : Instr), s.status = .running ∧ i.wellFormed = true :=
  ⟨State.reset, .jpVx 3#4 0x30A#12, by decide, by decide⟩
/-- Two states that differ in V5, and ADD V0, V1. -/
theorem witness_RegistersReadAndWritten : ∃ (i : Instr) (s s' t : State), i.wellFormed = true ∧ s.status = .running ∧
    AgreeButV s s' ∧ s.V ≠ s'.V ∧ (∀ r ∈ regsRead i, s.readV r = s'.readV r) ∧ exec i s = .next t :=
  ⟨.addReg 0#4 1#4, State.reset, State.reset.writeV 5#4 0xFF#8, _, by decide, by decide, rfl, by decide, by decide, rfl⟩
theorem witness_OnlyTheNamedInstructionsWrite : ∃ (i : Instr) (s t : State), exec i s = .next t :=
  ⟨.rnd 3#4 0x0F#8, State.reset, _, rfl⟩
theorem witness_MemoryIsNeverWritten : ∃ s t : State, Reaches s t ∧ t ≠ s :=
  ⟨State.reset, _, .step .refl rfl, fun h => absurd (congrArg State.status h) (by decide)⟩
/-- A state with another stale entry at index 3. -/
theorem witness_StaleEntriesAreUnobservable : ∃ s s' t : State, AgreeButStale s s' ∧ s.stack ≠ s'.stack ∧
    step s = .next t :=
  ⟨State.reset, State.reset.setStack (State.reset.stack.set 3 0x202#16) 0, _,
    ⟨rfl, rfl, rfl, rfl, rfl, rfl, rfl, rfl, fun _ h => absurd h (Nat.not_lt_zero _)⟩, by decide, rfl⟩
theorem witness_MemReadIsBoundsChecked : (∃ addr n : Nat, addr + n = 4097 ∧ ∃ k < n, addr + k ≥ 4096) ∧
    ∃ addr n : Nat, addr + n = 4096 ∧ 0 < n ∧ ∀ k < n, addr + k < 4096 :=
  ⟨⟨4095, 2, rfl, 1, by decide, by decide⟩, ⟨4094, 2, rfl, by decide, by decide⟩⟩
theorem witness_CanonicalMemoriesAreEqual : ∃ m m' : Memory, m ≠ [] ∧ m.wf ∧ m'.wf ∧ ∀ a < 4096, m.read a = m'.read a :=
  ⟨Memory.write [] 0x200 1#8, Memory.write [] 0x200 1#8, by decide, write_wf wf_nil, write_wf wf_nil, fun _ _ => rfl⟩
theorem witness_ConstructionMeetsTheInvariant : ∃ mem0 : Memory, mem0 ≠ [] ∧ mem0.wf :=
  ⟨Memory.write [] 0x200 1#8, by decide, write_wf wf_nil⟩
theorem witness_StepKeepsTheInvariant : ∃ s t : State, s.Inv ∧ step s = .next t :=
  ⟨State.reset, _, ⟨wf_nil, by decide, by decide, by decide⟩, rfl⟩
theorem witness_LoaderPlacesTheImage : (∃ img : List Byte, img.length = 1) ∧ ∃ img : List Byte, img.length = 3584 :=
  ⟨⟨[0#8], rfl⟩, ⟨List.replicate 3584 1#8, List.length_replicate⟩⟩
theorem witness_MalformedImagesConstructNoMachine : (∃ img : List Byte, 3584 < img.length) ∧
    ∃ (img : List Byte) (s : State), launch img = .ok s :=
  ⟨⟨List.replicate 3585 1#8, by rw [List.length_replicate]; decide⟩, ⟨[0x12#8, 0x00#8], _, rfl⟩⟩
theorem witness_RunStopsAtTheFirstTerminalState : (∃ s t : State, s.status = .running ∧ step s = .next t) ∧
    (∃ s : State, (run 1 s).status ≠ .running ∧ s.status = .running) ∧ ∃ s : State, s.status ≠ .running :=
  ⟨⟨State.reset, _, rfl, rfl⟩, ⟨State.reset, by decide, rfl⟩, ⟨State.reset.setStatus .halted, by decide⟩⟩
theorem witness_JumpToItselfNeverEnds : ∃ (s : State) (nnn : Addr12), s.status = .running ∧ s.pc = 0#4 ++ nnn ∧
    nnn.toNat ≤ 4094 ∧ opAt s = 0x1#4 ++ nnn :=
  ⟨at200 0x1200, 0x200#12, by decide, by decide, by decide, by decide⟩

end Sys2Proof.Tests
end

section
/-! # Memory along a run (spec/20_memory.md R55)

Each shared operation keeps memory, so each instruction, each step and each run does. -/

namespace Sys2Proof.Machine

/-! ## The shared operations keep memory -/

@[simp] theorem skipIf_mem (taken : Bool) (s : State) : (skipIf taken s).mem = s.mem := by
  rw [skipIf_eq, setPc_mem]

@[simp] theorem writeResult_mem (x : Nibble) (b : Byte) (s : State) : (writeResult x b s).mem = s.mem := rfl

@[simp] theorem writeResultFlag_mem (x : Nibble) (b f : Byte) (s : State) :
    (writeResultFlag x b f s).mem = s.mem := rfl

theorem push_mem {v : Word} {s t : State} (h : push v s = some t) : t.mem = s.mem := by
  by_cases hs : s.sp.val < 16
  · rw [push_of_lt hs] at h
    cases h
    exact setStack_mem ..
  · rw [push_full (by omega)] at h
    cases h

theorem pop_mem {s t : State} {v : Word} (h : pop s = some (v, t)) : t.mem = s.mem := by
  by_cases hs : 0 < s.sp.val
  · rw [pop_of_pos hs] at h
    cases h
    exact setStack_mem ..
  · rw [pop_empty (by omega)] at h
    cases h

/-! ## The instructions that can fault: memory is kept on both paths -/

theorem execRet_mem {s t : State} (h : execRet s = .next t) : t.mem = s.mem := by
  unfold execRet at h
  split at h
  next target u hpop =>
    cases h
    rw [setPc_mem, pop_mem hpop]
  next =>
    cases h
    exact raise_mem ..

theorem execCall_mem {nnn : Addr12} {s t : State} (h : execCall nnn s = .next t) : t.mem = s.mem := by
  unfold execCall at h
  split at h
  next u hpush =>
    cases h
    rw [setPc_mem, push_mem hpush]
  next =>
    cases h
    exact raise_mem ..

theorem execDrw_mem {x y n : Nibble} {s t : State} (h : execDrw x y n s = .next t) : t.mem = s.mem := by
  unfold execDrw at h
  split at h
  next =>
    cases h
    exact raise_mem ..
  next =>
    cases h
    rw [writeV_mem, setFB_mem, advance_mem]

/-! ## Every instruction, every step, every run -/

/-- The frame of memory, over the instruction set: RET, CALL and DRW by their own lemmas, the others by the update that
makes their one next state. -/
theorem exec_mem {i : Instr} {s t : State} (h : exec i s = .next t) : t.mem = s.mem := by
  cases i with
  | ret => exact execRet_mem h
  | call nnn => exact execCall_mem h
  | drw x y n => exact execDrw_mem h
  | halt => cases h; rw [halt_mem, advance_mem]
  | cls => cases h; rw [clearDisplay_mem, advance_mem]
  | ldI nnn => cases h; rw [setI_mem, advance_mem]
  | jp nnn | jpVx x nnn => cases h; exact setPc_mem ..
  | seImm x kk | sneImm x kk | seReg x y | sneReg x y => cases h; exact skipIf_mem ..
  | ldImm x kk | addImm x kk | ldReg x y | orReg x y | andReg x y | xorReg x y => cases h; exact writeResult_mem ..
  | rnd x kk => cases h; rw [writeResult_mem, setRandPos_mem]
  | addReg x y | sub x y | shr x y | subn x y | shl x y => cases h; exact writeResultFlag_mem ..

theorem step_mem {s t : State} (h : step s = .next t) : t.mem = s.mem := by
  obtain ⟨-, ⟨-, rfl⟩ | ⟨-, -, rfl⟩ | ⟨i, -, -, hexec⟩⟩ := step_cases h
  · exact raise_mem ..
  · exact raise_mem ..
  · exact exec_mem hexec

theorem reaches_mem {s t : State} (h : Reaches s t) : t.mem = s.mem := by
  induction h with
  | refl => rfl
  | step _ hstep ih => exact (step_mem hstep).trans ih

/-- Settles O44, by induction on the run: no step writes memory, so each address reads the byte it read at the start. -/
theorem memoryIsNeverWritten : Obligations.MemoryIsNeverWritten := by
  intro s t h
  have hmem : t.mem = s.mem := reaches_mem h
  exact ⟨hmem, fun a => by rw [hmem]⟩

end Sys2Proof.Machine
end

section
/-! # Decoder, encoder and opcode map (spec/30_encoding.md R71, R74)

A legal word and its instruction determine each other (`encode_of_decodeWord`, `decodeWord_encode`), and the words of a
row of the opcode map are the encodings of its instruction (`exists_encode_of_selects`, `exists_row_selects_encode`).
What a word decodes to, and with which operands, follows from these. -/

namespace Sys2Proof

/-! ## A word of a known class, put together again from its other fields -/

theorem wordNnn_of_fieldC {op : Word} {c : Nibble} (h : fieldC op = c) : wordNnn c (fieldNnn op) = op :=
  h ▸ wordNnn_fields op

theorem wordXkk_of_fieldC {op : Word} {c : Nibble} (h : fieldC op = c) : wordXkk c (fieldX op) (fieldKk op) = op :=
  h ▸ wordXkk_fields op

theorem word4_of_fieldC {op : Word} {c : Nibble} (h : fieldC op = c) :
    word4 c (fieldX op) (fieldY op) (fieldD op) = op :=
  h ▸ word4_fields op

theorem word4_of_fieldC_fieldD {op : Word} {c d : Nibble} (hc : fieldC op = c) (hd : fieldD op = d) :
    word4 c (fieldX op) (fieldY op) d = op :=
  hd ▸ word4_of_fieldC hc

/-- `x` and `nnn` overlap: `x` is the top nibble of `nnn` (R73). -/
theorem fieldX_eq_fieldNnn_top (op : Word) : fieldX op = (fieldNnn op).extractLsb' 8 4 := by
  rw [← fieldX_wordNnn (fieldC op), wordNnn_fields]

/-! ## What the three masks of R74 test -/

theorem eq_of_mask_FFFF {op p : Word} (h : op &&& 0xFFFF#16 = p) : p = op :=
  h.symm.trans BitVec.and_allOnes

theorem fieldC_of_mask_F000 {op : Word} {c : Nibble} (h : op &&& 0xF000#16 = wordNnn c 0#12) : fieldC op = c := by
  rw [← wordNnn_fields op, wordNnn_mask] at h
  simpa only [fieldC_wordNnn] using congrArg fieldC h

theorem word4_of_mask_F00F {op : Word} {c d : Nibble} (h : op &&& 0xF00F#16 = word4 c 0#4 0#4 d) :
    word4 c (fieldX op) (fieldY op) d = op := by
  rw [← word4_fields op, word4_mask_F00F] at h
  have hc : fieldC op = c := by simpa only [fieldC_word4] using congrArg fieldC h
  have hd : fieldD op = d := by simpa only [fieldD_word4] using congrArg fieldD h
  exact word4_of_fieldC_fieldD hc hd

/-! ## Encode after decode -/

theorem encode_of_decodeClass0 {op : Word} {i : Instr} (h : decodeClass0 op = some i) :
    i.wellFormed = true ∧ encode i = op := by
  unfold decodeClass0 at h
  split at h
  next hop => cases h; exact ⟨rfl, hop.symm⟩
  split at h
  next hop => cases h; exact ⟨rfl, hop.symm⟩
  split at h
  next hop => cases h; exact ⟨rfl, hop.symm⟩
  next => cases h

theorem encode_of_decodeClass8 {x y d : Nibble} {i : Instr} (h : decodeClass8 x y d = some i) :
    i.wellFormed = true ∧ encode i = word4 0x8#4 x y d := by
  unfold decodeClass8 at h
  split at h
  case h_10 => cases h
  all_goals
    next hd =>
      cases h
      exact ⟨rfl, congrArg (word4 0x8#4 x y) (BitVec.eq_of_toNat_eq hd.symm)⟩

/-- No bit of a legal word is lost: its instruction is well-formed and encodes to it. -/
theorem encode_of_decodeWord {op : Word} {i : Instr} (h : decodeWord op = some i) :
    i.wellFormed = true ∧ encode i = op := by
  unfold decodeWord at h
  split at h
  next => exact encode_of_decodeClass0 h
  next hc => cases h; exact ⟨rfl, wordNnn_of_fieldC (BitVec.eq_of_toNat_eq hc)⟩
  next hc => cases h; exact ⟨rfl, wordNnn_of_fieldC (BitVec.eq_of_toNat_eq hc)⟩
  next hc => cases h; exact ⟨rfl, wordXkk_of_fieldC (BitVec.eq_of_toNat_eq hc)⟩
  next hc => cases h; exact ⟨rfl, wordXkk_of_fieldC (BitVec.eq_of_toNat_eq hc)⟩
  next hc =>
    split at h
    next hd => cases h; exact ⟨rfl, word4_of_fieldC_fieldD (BitVec.eq_of_toNat_eq hc) hd⟩
    next => cases h
  next hc => cases h; exact ⟨rfl, wordXkk_of_fieldC (BitVec.eq_of_toNat_eq hc)⟩
  next hc => cases h; exact ⟨rfl, wordXkk_of_fieldC (BitVec.eq_of_toNat_eq hc)⟩
  next hc =>
    obtain ⟨hwf, henc⟩ := encode_of_decodeClass8 h
    exact ⟨hwf, henc.trans (word4_of_fieldC (BitVec.eq_of_toNat_eq hc))⟩
  next hc =>
    split at h
    next hd => cases h; exact ⟨rfl, word4_of_fieldC_fieldD (BitVec.eq_of_toNat_eq hc) hd⟩
    next => cases h
  next hc => cases h; exact ⟨rfl, wordNnn_of_fieldC (BitVec.eq_of_toNat_eq hc)⟩
  next hc =>
    cases h
    exact ⟨beq_iff_eq.mpr (fieldX_eq_fieldNnn_top op), wordNnn_of_fieldC (BitVec.eq_of_toNat_eq hc)⟩
  next hc => cases h; exact ⟨rfl, wordXkk_of_fieldC (BitVec.eq_of_toNat_eq hc)⟩
  next hc => cases h; exact ⟨rfl, word4_of_fieldC (BitVec.eq_of_toNat_eq hc)⟩
  next => cases h

/-! ## Decode after encode -/

theorem decodeWord_encode {i : Instr} (h : i.wellFormed = true) : decodeWord (encode i) = some i := by
  cases i with
  | halt | cls | ret => rfl
  | jpVx x nnn =>
    have hx : x = nnn.extractLsb' 8 4 := beq_iff_eq.mp h
    simp [encode, decodeWord, hx]
  | jp | call | ldI | seImm | sneImm | ldImm | addImm | rnd | seReg | sneReg | drw => simp [encode, decodeWord]
  | ldReg | orReg | andReg | xorReg | addReg | sub | shr | subn | shl => simp [encode, decodeWord, decodeClass8]

/-! ## The rows of the opcode map and the encodings (R74) -/

/-- A word that selects a row is the encoding of a well-formed instruction with the row's mnemonic. -/
theorem exists_encode_of_selects (op : Word) : ∀ row ∈ opcodeTable, op &&& row.mask = row.pattern →
    ∃ i : Instr, i.wellFormed = true ∧ encode i = op ∧ i.mnemonic = row.mnemonic := by
  simp only [opcodeTable, List.forall_mem_cons]
  exact
   ⟨fun h => ⟨.halt, rfl, eq_of_mask_FFFF h, rfl⟩,
    fun h => ⟨.cls, rfl, eq_of_mask_FFFF h, rfl⟩,
    fun h => ⟨.ret, rfl, eq_of_mask_FFFF h, rfl⟩,
    fun h => ⟨.jp _, rfl, wordNnn_of_fieldC (fieldC_of_mask_F000 h), rfl⟩,
    fun h => ⟨.call _, rfl, wordNnn_of_fieldC (fieldC_of_mask_F000 h), rfl⟩,
    fun h => ⟨.seImm _ _, rfl, wordXkk_of_fieldC (fieldC_of_mask_F000 h), rfl⟩,
    fun h => ⟨.sneImm _ _, rfl, wordXkk_of_fieldC (fieldC_of_mask_F000 h), rfl⟩,
    fun h => ⟨.seReg _ _, rfl, word4_of_mask_F00F h, rfl⟩,
    fun h => ⟨.ldImm _ _, rfl, wordXkk_of_fieldC (fieldC_of_mask_F000 h), rfl⟩,
    fun h => ⟨.addImm _ _, rfl, wordXkk_of_fieldC (fieldC_of_mask_F000 h), rfl⟩,
    fun h => ⟨.ldReg _ _, rfl, word4_of_mask_F00F h, rfl⟩,
    fun h => ⟨.orReg _ _, rfl, word4_of_mask_F00F h, rfl⟩,
    fun h => ⟨.andReg _ _, rfl, word4_of_mask_F00F h, rfl⟩,
    fun h => ⟨.xorReg _ _, rfl, word4_of_mask_F00F h, rfl⟩,
    fun h => ⟨.addReg _ _, rfl, word4_of_mask_F00F h, rfl⟩,
    fun h => ⟨.sub _ _, rfl, word4_of_mask_F00F h, rfl⟩,
    fun h => ⟨.shr _ _, rfl, word4_of_mask_F00F h, rfl⟩,
    fun h => ⟨.subn _ _, rfl, word4_of_mask_F00F h, rfl⟩,
    fun h => ⟨.shl _ _, rfl, word4_of_mask_F00F h, rfl⟩,
    fun h => ⟨.sneReg _ _, rfl, word4_of_mask_F00F h, rfl⟩,
    fun h => ⟨.ldI _, rfl, wordNnn_of_fieldC (fieldC_of_mask_F000 h), rfl⟩,
    fun h => ⟨.jpVx _ _, beq_iff_eq.mpr (fieldX_eq_fieldNnn_top op), wordNnn_of_fieldC (fieldC_of_mask_F000 h), rfl⟩,
    fun h => ⟨.rnd _ _, rfl, wordXkk_of_fieldC (fieldC_of_mask_F000 h), rfl⟩,
    fun h => ⟨.drw _ _ _, rfl, word4_of_fieldC (fieldC_of_mask_F000 h), rfl⟩,
    List.forall_mem_nil _⟩

/-- Every instruction's word selects a row with the instruction's mnemonic. -/
theorem Laws.RowMatch.all (i : Instr) : Laws.RowMatch.Statement i := by
  cases i with
  | halt => exact halt
  | cls => exact cls
  | ret => exact ret
  | jp nnn => exact jp nnn
  | call nnn => exact call nnn
  | seImm x kk => exact seImm x kk
  | sneImm x kk => exact sneImm x kk
  | seReg x y => exact seReg x y
  | ldImm x kk => exact ldImm x kk
  | addImm x kk => exact addImm x kk
  | ldReg x y => exact ldReg x y
  | orReg x y => exact orReg x y
  | andReg x y => exact andReg x y
  | xorReg x y => exact xorReg x y
  | addReg x y => exact addReg x y
  | sub x y => exact sub x y
  | shr x y => exact shr x y
  | subn x y => exact subn x y
  | shl x y => exact shl x y
  | sneReg x y => exact sneReg x y
  | ldI nnn => exact ldI nnn
  | jpVx x nnn => exact jpVx x nnn
  | rnd x kk => exact rnd x kk
  | drw x y n => exact drw x y n

theorem exists_row_selects_encode (i : Instr) : ∃ row ∈ opcodeTable, encode i &&& row.mask = row.pattern := by
  obtain ⟨row, hrow, -, hsel⟩ := Laws.RowMatch.all i
  exact ⟨row, hrow, beq_iff_eq.mp hsel⟩

/-! ## The obligations -/

/-- Settles O3. A word that selects a row is the encoding of one of the row's instructions, so it decodes to it; a word
that decodes is the encoding of its instruction, so it selects a row. -/
theorem decoderFollowsTheOpcodeMap : Obligations.DecoderFollowsTheOpcodeMap := by
  refine fun op => ⟨fun row hrow hsel => ?_, fun hnone => ?_⟩
  · obtain ⟨i, hwf, rfl, hmn⟩ := exists_encode_of_selects op row hrow hsel
    exact ⟨i, decodeWord_encode hwf, hmn⟩
  · refine Option.eq_none_iff_forall_ne_some.mpr fun i hdec => ?_
    obtain ⟨-, rfl⟩ := encode_of_decodeWord hdec
    obtain ⟨row, hrow, hsel⟩ := exists_row_selects_encode i
    exact hnone row hrow hsel

/-- Settles O6. The word is the encoding of its instruction, whose fields are the operands it was assembled from. -/
theorem decodedOperandsAreTheFields : Obligations.DecodedOperandsAreTheFields := by
  refine fun op => ⟨⟨toNat_fieldC op, toNat_fieldX op, toNat_fieldY op, toNat_fieldD op, toNat_fieldNnn op,
    toNat_fieldKk op⟩, fun i hdec => ?_⟩
  obtain ⟨hwf, rfl⟩ := encode_of_decodeWord hdec
  cases i with
  | jp nnn | call nnn | ldI nnn => exact (fieldNnn_wordNnn _ nnn).symm
  | jpVx x nnn =>
    have hx : x = nnn.extractLsb' 8 4 := beq_iff_eq.mp hwf
    exact ⟨hx.trans (fieldX_wordNnn _ nnn).symm, (fieldNnn_wordNnn _ nnn).symm⟩
  | seImm x kk | sneImm x kk | ldImm x kk | addImm x kk | rnd x kk =>
    exact ⟨(fieldX_wordXkk _ x kk).symm, (fieldKk_wordXkk _ x kk).symm⟩
  | seReg x y | sneReg x y | ldReg x y | orReg x y | andReg x y | xorReg x y | addReg x y | sub x y | shr x y
  | subn x y | shl x y =>
    exact ⟨(fieldX_word4 _ x y _).symm, (fieldY_word4 _ x y _).symm⟩
  | drw x y n => exact ⟨(fieldX_word4 _ x y n).symm, (fieldY_word4 _ x y n).symm, (fieldD_word4 _ x y n).symm⟩
  | halt | cls | ret => rfl

end Sys2Proof
end

section
/-! # Display clear, jump and immediate skips (spec/40_control_flow.md R101, R103, R106, R107)

The words are encodings, so they decode by `decodeWord_encode`. Each instruction is one shared update of the state, and
the two skips differ only in the condition handed to `skipIf`. -/

namespace Sys2Proof.Machine

/-! ## The shared updates as updates of a field -/

/-- `zext_16(nnn)` is `nnn` behind four zero bits (R72). -/
theorem zextAddr_eq_append (nnn : Addr12) : zextAddr nnn = 0#4 ++ nnn :=
  BitVec.setWidth_eq_append (by decide)

theorem clearDisplay_advance_eq (s : State) :
    clearDisplay s.advance = { s with pc := s.pc + 2#16, FB := Framebuffer.cleared } := rfl

/-- A skip whose test `c` decides `p` (R106 to R109): the pc advances a second time where `p` holds, and nothing else
changes. -/
theorem skipIf_of_iff {c : Bool} {p : Prop} [Decidable p] (h : c = true ↔ p) (s : State) :
    skipIf c s = { s with pc := if p then s.pc + 2#16 + 2#16 else s.pc + 2#16 } := by
  cases c with
  | true => rw [if_pos (h.mp rfl)]; rfl
  | false => rw [if_neg fun hp => Bool.false_ne_true (h.mpr hp)]; rfl

/-! ## What the instructions answer -/

theorem exec_cls (s : State) :
    exec .cls s = .next { s with pc := s.pc + 2#16, FB := Framebuffer.cleared } :=
  congrArg Host.Outcome.next (clearDisplay_advance_eq s)

theorem exec_jp (nnn : Addr12) (s : State) : exec (.jp nnn) s = .next { s with pc := 0#4 ++ nnn } :=
  congrArg (fun a => Host.Outcome.next (s.setPc a)) (zextAddr_eq_append nnn)

theorem exec_seImm (x : Nibble) (kk : Byte) (s : State) :
    exec (.seImm x kk) s =
      .next { s with pc := if s.readV x = kk then s.pc + 2#16 + 2#16 else s.pc + 2#16 } :=
  congrArg Host.Outcome.next (skipIf_of_iff beq_iff_eq s)

theorem exec_sneImm (x : Nibble) (kk : Byte) (s : State) :
    exec (.sneImm x kk) s =
      .next { s with pc := if s.readV x ≠ kk then s.pc + 2#16 + 2#16 else s.pc + 2#16 } :=
  congrArg Host.Outcome.next (skipIf_of_iff bne_iff_ne s)

/-! ## The obligations -/

/-- Settles O16: the new framebuffer is the cleared one. -/
theorem clsClearsEveryPixel : Obligations.ClsClearsEveryPixel :=
  ⟨decodeWord_encode (i := .cls) rfl, fun s => ⟨Framebuffer.cleared, exec_cls s, pixel_cleared⟩⟩

/-- Settles O18. -/
theorem jpSetsPc : Obligations.JpSetsPc :=
  fun nnn => ⟨decodeWord_encode (i := .jp nnn) rfl, exec_jp nnn⟩

/-- Settles O21: the two skips test the register by `==` and by `!=`. -/
theorem immediateSkips : Obligations.ImmediateSkips :=
  fun x kk => ⟨decodeWord_encode (i := .seImm x kk) rfl, decodeWord_encode (i := .sneImm x kk) rfl,
    fun s => ⟨exec_seImm x kk s, exec_sneImm x kk s⟩⟩

end Sys2Proof.Machine
end

section
/-! # Load, copy, bitwise and add-immediate instructions, and the absence of faults (spec/41_arithmetic.md R131 to R136,
R142, R143, R145)

Six of the instructions answer `writeResult` of a byte, so one lemma (`exec_writes`) gives the frame and the register
file of them all; each adds only which byte it is. -/

namespace Sys2Proof.Machine

/-! ## The shared updates -/

/-- `writeResult` changes the pc and the registers only (R130). -/
theorem writeResult_eq (x : Nibble) (b : Byte) (s : State) :
    writeResult x b s = { s with pc := s.pc + 2#16, V := (writeResult x b s).V } := rfl

@[simp] theorem writeResult_status (x : Nibble) (b : Byte) (s : State) : (writeResult x b s).status = s.status := rfl

@[simp] theorem writeResultFlag_status (x : Nibble) (b f : Byte) (s : State) :
    (writeResultFlag x b f s).status = s.status := rfl

theorem toNat_addResult (a b : Byte) : (addResult a b).toNat = (a.toNat + b.toNat) % 256 :=
  BitVec.toNat_ofNat _ 8

/-! ## What the instructions answer -/

theorem exec_ldImm (x : Nibble) (kk : Byte) (s : State) : exec (.ldImm x kk) s = .next (writeResult x kk s) := rfl

theorem exec_addImm (x : Nibble) (kk : Byte) (s : State) :
    exec (.addImm x kk) s = .next (writeResult x (addResult (s.readV x) kk) s) := rfl

theorem exec_ldReg (x y : Nibble) (s : State) : exec (.ldReg x y) s = .next (writeResult x (s.readV y) s) := rfl

theorem exec_orReg (x y : Nibble) (s : State) :
    exec (.orReg x y) s = .next (writeResult x (s.readV x ||| s.readV y) s) := rfl

theorem exec_andReg (x y : Nibble) (s : State) :
    exec (.andReg x y) s = .next (writeResult x (s.readV x &&& s.readV y) s) := rfl

theorem exec_xorReg (x y : Nibble) (s : State) :
    exec (.xorReg x y) s = .next (writeResult x (s.readV x ^^^ s.readV y) s) := rfl

theorem exec_ldI (nnn : Addr12) (s : State) :
    exec (.ldI nnn) s = .next { s with pc := s.pc + 2#16, I := 0#4 ++ nnn } :=
  congrArg (fun a => Host.Outcome.next (s.advance.setI a)) (zextAddr_eq_append nnn)

/-- RND consumes a byte of RAND first, and then writes it masked (R143). -/
theorem exec_rnd (x : Nibble) (kk : Byte) (s : State) :
    exec (.rnd x kk) s =
      .next (writeResult x (Config.randByte s.randPos &&& kk) (s.setRandPos (s.randPos + 1))) := rfl

/-- An instruction that answers `writeResult x b` writes `b` to `V[x]`, keeps every other register, VF among them, and
changes nothing else but the pc. -/
theorem exec_writes {i : Instr} {x : Nibble} {b : Byte} {s : State} (h : exec i s = .next (writeResult x b s)) :
    ∃ t, exec i s = .next t ∧ t = { s with pc := s.pc + 2#16, V := t.V } ∧
      ∀ r, t.readV r = if r = x then b else s.readV r :=
  ⟨writeResult x b s, h, writeResult_eq x b s, readV_writeResult s x b⟩

/-! ## The obligations -/

/-- Settles O26: the byte written is `kk`, and `u8` of the sum. -/
theorem immediateLoadAndAdd : Obligations.ImmediateLoadAndAdd := by
  refine fun x kk => ⟨decodeWord_encode (i := .ldImm x kk) rfl, decodeWord_encode (i := .addImm x kk) rfl,
    fun s => ⟨exec_writes (exec_ldImm x kk s), ?_⟩⟩
  obtain ⟨t, hexec, hframe, hV⟩ := exec_writes (exec_addImm x kk s)
  refine ⟨t, hexec, hframe, fun r => ?_⟩
  rw [hV r, apply_ite BitVec.toNat, toNat_addResult]

/-- Settles O27. -/
theorem copyAndBitwise : Obligations.CopyAndBitwise :=
  fun x y => ⟨decodeWord_encode (i := .ldReg x y) rfl, decodeWord_encode (i := .orReg x y) rfl,
    decodeWord_encode (i := .andReg x y) rfl, decodeWord_encode (i := .xorReg x y) rfl,
    fun s => ⟨exec_writes (exec_ldReg x y s), exec_writes (exec_orReg x y s), exec_writes (exec_andReg x y s),
      exec_writes (exec_xorReg x y s)⟩⟩

/-- Settles O33. -/
theorem ldISetsI : Obligations.LdISetsI :=
  fun nnn => ⟨decodeWord_encode (i := .ldI nnn) rfl, exec_ldI nnn⟩

/-- Settles O35: each instruction answers a shared update that keeps the status, and RND's draw keeps it before that. -/
theorem arithmeticNeverFaults : Obligations.ArithmeticNeverFaults := by
  intro i s hi
  cases i with
  | ldImm | addImm | ldReg | orReg | andReg | xorReg => exact ⟨_, rfl, writeResult_status _ _ s⟩
  | addReg | sub | shr | subn | shl => exact ⟨_, rfl, writeResultFlag_status _ _ _ s⟩
  | ldI nnn => exact ⟨_, exec_ldI nnn s, rfl⟩
  | rnd x kk => exact ⟨_, exec_rnd x kk s, (writeResult_status _ _ _).trans (setRandPos_status s _)⟩
  | halt | cls | ret | jp | call | seImm | sneImm | seReg | sneReg | jpVx | drw => exact absurd hi Bool.false_ne_true

end Sys2Proof.Machine
end

section
/-! # The clear operation (spec/42_draw.md R160, spec/00_scope.md R14) -/

namespace Sys2Proof.Machine

/-- R160: `clear()` writes the framebuffer and nothing else. -/
theorem externalClear_eq (s : State) : externalClear s = { s with FB := Framebuffer.cleared } := rfl

@[simp] theorem pixel_externalClear (s : State) (x : Fin 64) (y : Fin 32) : pixel (externalClear s) x y = false :=
  pixel_cleared x y

/-- CLS answers what `clear()` leaves, with the pc advanced (R101, R160). -/
theorem exec_cls_eq_externalClear (s : State) :
    exec .cls s = .next { externalClear s with pc := s.pc + 2#16 } := by
  rw [externalClear_eq, exec_cls]

/-- Settles O39: the new framebuffer is the cleared one, for the external clear and for CLS. -/
theorem clearTurnsEveryPixelOff : Obligations.ClearTurnsEveryPixelOff :=
  fun s => ⟨externalClear_eq s, pixel_externalClear s, exec_cls_eq_externalClear s⟩

end Sys2Proof.Machine
end

section
/-! # Decode fault and stack overflow (spec/60_exceptions.md R201, R202)

An illegal word faults by the opcode map and the step's own rule. CALL answers one state with room on the stack and one
with none, and a row of calls that the stack has room for completes. -/

namespace Sys2Proof.Machine

/-! ## The fetched word -/

/-- Two bytes that read at the pc and after it lie inside memory and are the word the fetch delivers (R81). -/
theorem opAt_of_read {s : State} {hi lo : Byte} (hhi : s.mem.read s.pc.toNat = some hi)
    (hlo : s.mem.read (s.pc.toNat + 1) = some lo) : s.pc.toNat ≤ 4094 ∧ opAt s = hi ++ lo := by
  obtain ⟨-, rfl⟩ := read_eq_some.mp hhi
  obtain ⟨hlt, rfl⟩ := read_eq_some.mp hlo
  exact ⟨by omega, rfl⟩

/-- A fetched word that decodes to nothing is a DecodeFault (R83, R201). -/
theorem fetchDecode_of_illegal {s : State} (hpc : s.pc.toNat ≤ 4094) (hdec : decodeWord (opAt s) = none) :
    fetchDecode s = .error (.decodeFault (opAt s) s.pc) := by
  simp only [fetchDecode, fetch_of_le hpc, hdec]

/-! ## CALL, with room on the stack and without (spec/40_control_flow.md R104) -/

theorem exec_call_of_lt (nnn : Addr12) {s : State} (h : s.sp.val < 16) :
    exec (.call nnn) s =
      .next { s with
        pc := 0#4 ++ nnn
        stack := s.stack.set s.sp.val (s.pc + 2#16) h
        sp := ⟨s.sp.val + 1, Nat.succ_lt_succ h⟩ } := by
  simp only [exec, execCall, push_of_lt h, zextAddr_eq_append]
  rfl

theorem exec_call_full (nnn : Addr12) {s : State} (h : s.sp.val = 16) :
    exec (.call nnn) s = .next (raise (.stackOverflow (0x2#4 ++ nnn) s.pc) s) := by
  simp only [exec, execCall, push_full h]
  rfl

theorem callAll_cons_of_next {nnn : Addr12} {rest : List Addr12} {s u : State} (h : exec (.call nnn) s = .next u) :
    callAll (nnn :: rest) s = callAll rest u := by
  simp only [callAll, h]

/-- Calls that the stack has room for complete, one entry each. -/
theorem callAll_of_le {targets : List Addr12} {s : State} (h : s.sp.val + targets.length ≤ 16) :
    ∃ t, callAll targets s = .next t ∧ t.status = s.status ∧ t.sp.val = s.sp.val + targets.length := by
  induction targets generalizing s with
  | nil => exact ⟨s, rfl, rfl, rfl⟩
  | cons nnn rest ih =>
    rw [List.length_cons] at h ⊢
    obtain ⟨u, hcall, hstatus, hsp⟩ :
        ∃ u, exec (.call nnn) s = .next u ∧ u.status = s.status ∧ u.sp.val = s.sp.val + 1 :=
      ⟨_, exec_call_of_lt nnn (by omega), rfl, rfl⟩
    obtain ⟨t, hrest, hstatus', hsp'⟩ := ih (s := u) (by omega)
    exact ⟨t, (callAll_cons_of_next hcall).trans hrest, hstatus'.trans hstatus, by omega⟩

/-! ## The obligations -/

/-- Settles O11: by the opcode map (O3) the fetched word decodes to nothing, and the step takes the fault. -/
theorem unmatchedWordRaisesDecodeFault : Obligations.UnmatchedWordRaisesDecodeFault := by
  intro s hi lo hrun hhi hlo hrows
  obtain ⟨hpc, hop⟩ := opAt_of_read hhi hlo
  have hdec : decodeWord (opAt s) = none := hop ▸ (decoderFollowsTheOpcodeMap (hi ++ lo)).2 hrows
  rw [← hop]
  exact ⟨_, step_of_error hrun (fetchDecode_of_illegal hpc hdec), raise_status s _⟩

/-- Settles O25: the first k of sixteen calls from an empty stack fit, all sixteen fill it; a full stack overflows. -/
theorem seventeenthCallOverflows : Obligations.SeventeenthCallOverflows := by
  refine ⟨fun s nnn hsp => ⟨_, exec_call_full nnn (congrArg Fin.val hsp), raise_status s _⟩, ?_⟩
  intro s targets nnn hsp hlen
  have hempty : s.sp.val = 0 := congrArg Fin.val hsp
  refine ⟨fun k hk => ?_, ?_⟩
  · have htake : (targets.take k).length = k := List.length_take_of_le (by omega)
    obtain ⟨t, hcalls, hstatus, hcount⟩ := callAll_of_le (targets := targets.take k) (s := s) (by omega)
    exact ⟨t, hcalls, hstatus, by omega⟩
  · obtain ⟨t, hcalls, -, hcount⟩ := callAll_of_le (targets := targets) (s := s) (by omega)
    exact ⟨t, _, hcalls, exec_call_full nnn (by omega), raise_status t _⟩

end Sys2Proof.Machine
end

section
/-! # Load-time errors (spec/70_reset_and_hazards.md R233) -/

namespace Sys2Proof.Machine

theorem loadImage_nil : loadImage [] = .error .emptyImage := rfl

theorem loadImage_tooLong {img : List Byte} (h : 3584 < img.length) : loadImage img = .error .imageTooLong := by
  have hne : img.length ≠ 0 := by omega
  have hlong : Config.maxImage < img.length := h
  rw [loadImage, if_neg hne, if_pos hlong]

theorem launch_of_loadImage_error {img : List Byte} {e : LoadError} (h : loadImage img = .error e) :
    launch img = .error e := by
  simp only [launch, h]

/-- A malformed image is a load-time error, and the launch reports it. -/
theorem launch_malformed {img : List Byte} (h : img = [] ∨ 3584 < img.length) :
    ∃ e, loadImage img = .error e ∧ launch img = .error e := by
  obtain rfl | hlong := h
  · exact ⟨_, loadImage_nil, launch_of_loadImage_error loadImage_nil⟩
  · exact ⟨_, loadImage_tooLong hlong, launch_of_loadImage_error (loadImage_tooLong hlong)⟩

/-- Settles O52: a launch that constructs a machine answers no error, so its image is not malformed. -/
theorem malformedImagesConstructNoMachine : Obligations.MalformedImagesConstructNoMachine := by
  refine fun img => ⟨launch_malformed, fun s hok => ?_⟩
  have hgood : ¬(img = [] ∨ 3584 < img.length) := by
    intro hbad
    obtain ⟨e, -, herr⟩ := launch_malformed hbad
    cases hok.symm.trans herr
  obtain ⟨hne, hshort⟩ := not_or.mp hgood
  exact ⟨List.length_pos_iff.mpr hne, Nat.le_of_not_lt hshort⟩

end Sys2Proof.Machine
end

section
/-! # Round trip, row selection and illegal words (spec/30_encoding.md R74 to R79) -/

namespace Sys2Proof

/-- The bytes of a well-formed instruction decode to it, whatever follows them (R79). -/
theorem decodeBytes_encodeBytes {i : Instr} (h : i.wellFormed = true) (rest : List Byte) :
    decodeBytes (encodeBytes i ++ rest) = .ok (i, rest) := by
  simp only [encodeBytes, List.cons_append, List.nil_append, decodeBytes_word, decodeWord_encode h]

/-- A mnemonic names one row of the opcode map. -/
theorem nodup_mnemonics : (opcodeTable.map OpcodeRow.mnemonic).Nodup := by decide

/-- Class 0 in numbers (R75). -/
theorem decodeClass0_eq_none {op : Word} :
    decodeClass0 op = none ↔ op.toNat ≠ 0x0000 ∧ op.toNat ≠ 0x00E0 ∧ op.toNat ≠ 0x00EE := by
  simp only [decodeClass0, BitVec.toNat_eq, BitVec.toNat_ofNat]
  split_ifs <;> simp_all

/-- Classes 5 and 9: the fourth nibble must be 0 (R75, decision D8). -/
theorem strictRow_eq_none {d : Nibble} {i : Instr} : (if d = 0#4 then some i else none) = none ↔ d.toNat ≠ 0 := by
  simp [BitVec.toNat_eq]

/-- Class 8 in numbers (R75). -/
theorem decodeClass8_eq_none {x y d : Nibble} :
    decodeClass8 x y d = none ↔ 8 ≤ d.toNat ∧ d.toNat ≠ 0xE := by
  unfold decodeClass8
  split
  case h_10 => simp only [imp_false, true_iff] at *; omega
  all_goals simp only [reduceCtorEq, false_iff]; omega

/-- Settles O1. -/
theorem decodeOfEncodeIsTheInstruction : Obligations.DecodeOfEncodeIsTheInstruction :=
  fun _ hwf => ⟨decodeWord_encode hwf, decodeBytes_encodeBytes hwf⟩

/-- Settles O2. -/
theorem encodeOfDecodeIsTheWord : Obligations.EncodeOfDecodeIsTheWord :=
  fun _ _ => encode_of_decodeWord

/-- Settles O4. The word is the encoding of an instruction of either row, and its decoding is one instruction, so the
rows carry one mnemonic. -/
theorem noWordSelectsTwoRows : Obligations.NoWordSelectsTwoRows := by
  intro op row hrow row' hrow' hsel hsel'
  obtain ⟨i, hwf, henc, hmn⟩ := exists_encode_of_selects op row hrow hsel
  obtain ⟨i', hwf', henc', hmn'⟩ := exists_encode_of_selects op row' hrow' hsel'
  have hi : some i = some i' := by rw [← decodeWord_encode hwf, ← decodeWord_encode hwf', henc, henc']
  cases hi
  exact List.inj_on_of_nodup_map nodup_mnemonics hrow hrow' (hmn.symm.trans hmn')

/-- Settles O5, class by class: the class and the fourth nibble are digits of the word (R71). -/
theorem illegalWordsByClass : Obligations.IllegalWordsByClass := by
  intro op
  have hlt := op.isLt
  have hC := toNat_fieldC op
  have hD := toNat_fieldD op
  unfold decodeWord
  split
  case h_1 => rw [decodeClass0_eq_none]; omega
  case h_6 | h_10 => rw [strictRow_eq_none]; omega
  case h_9 => rw [decodeClass8_eq_none]; omega
  case h_15 => simp only [imp_false, true_iff] at *; omega
  all_goals simp only [reduceCtorEq, false_iff]; omega

/-- Settles O7. -/
theorem sampleWordsDecode : Obligations.SampleWordsDecode := by
  unfold Obligations.SampleWordsDecode
  decide

end Sys2Proof
end

section
/-! # The step, its fetch and the placed word (spec/30_encoding.md R80 to R86) -/

namespace Sys2Proof.Machine

/-- A legal word at the pc of a Running machine is executed, at the state before the step (R84, log 7). -/
theorem step_of_decodeWord {s : State} {i : Instr} (hrun : s.status = .running) (hpc : s.pc.toNat ≤ 4094)
    (hdec : decodeWord (opAt s) = some i) : step s = exec i s :=
  step_of_ok hrun (by simp only [fetchDecode, fetch_of_le hpc, hdec])

/-- A pc at which no word can be fetched is an AddressFault (R81, decision D22). -/
theorem step_of_pc_gt {s : State} (hrun : s.status = .running) (hpc : 4094 < s.pc.toNat) :
    step s = .next (raise (.addressFault s.pc (BitVec.ofNat 16 (max s.pc.toNat 4096)) none) s) :=
  step_of_error hrun (by simp only [fetchDecode, fetch_of_gt hpc])

/-- The word at the pc is made of the pc and two bytes of memory, of nothing else in the state (R81). -/
theorem opAt_congr {s t : State} (hpc : t.pc = s.pc) (h0 : t.mem.byte s.pc.toNat = s.mem.byte s.pc.toNat)
    (h1 : t.mem.byte (s.pc.toNat + 1) = s.mem.byte (s.pc.toNat + 1)) : opAt t = opAt s := by
  simp only [opAt, hpc, h0, h1]

/-! ## The word the host places (log 12) -/

theorem fetchAddr_of_le {s : State} (h : s.pc.toNat ≤ 4094) : fetchAddr s = s.pc :=
  if_pos (Nat.lt_succ_of_le (Nat.succ_le_succ h))

theorem fetchAddr_le (s : State) : (fetchAddr s).toNat ≤ 4094 := by
  unfold fetchAddr
  split
  next h => exact Nat.le_of_lt_succ (Nat.lt_of_succ_lt_succ h)
  next => decide

theorem byte_withFetchWord {s : State} (h : s.mem.wf) (w k : Nat) :
    (s.withFetchWord 16 w).mem.byte k =
      if k = (fetchAddr s).toNat then (BitVec.ofNat 16 (w % 2 ^ 16)).extractLsb' 8 8
      else if k = (fetchAddr s).toNat + 1 then (BitVec.ofNat 16 (w % 2 ^ 16)).extractLsb' 0 8
      else s.mem.byte k :=
  byte_storeWord h (Nat.lt_succ_of_le (Nat.succ_le_succ (fetchAddr_le s))) k

/-- The placed word is the word at the pc. -/
theorem opAt_withFetchWord {s : State} (h : s.mem.wf) (w : Nat) :
    opAt (s.withFetchWord 16 w) = BitVec.ofNat 16 (w % 2 ^ 16) := by
  have hpc : (s.withFetchWord 16 w).pc = fetchAddr s := rfl
  have hne : (fetchAddr s).toNat + 1 ≠ (fetchAddr s).toNat := Nat.succ_ne_self _
  rw [opAt, hpc, byte_withFetchWord h, byte_withFetchWord h, if_pos rfl, if_neg hne, if_pos rfl]
  exact wordOfBytes_bytes _

/-! ## The obligations -/

/-- Settles O8: the two bytes are the word that the fetch delivers. -/
theorem stepRunsTheDecodedInstruction : Obligations.StepRunsTheDecodedInstruction := by
  intro s i hi lo hrun hhi hlo hdec
  obtain ⟨hpc, hop⟩ := opAt_of_read hhi hlo
  exact step_of_decodeWord hrun hpc (hop ▸ hdec)

/-- Settles O10. -/
theorem fetchReadsTwoBytesOrFaults : Obligations.FetchReadsTwoBytesOrFaults := by
  refine ⟨fun s hi lo hhi hlo => ?_, fun s hrun hpc => ?_⟩
  · obtain ⟨hpc, hop⟩ := opAt_of_read hhi hlo
    rw [fetch_of_le hpc, hop]
  · exact ⟨_, step_of_pc_gt hrun (by omega), raise_status s _⟩

/-- Settles O9: the placed word lies at the fetch address, where the step reads it back. -/
theorem stepRunsThePlacedWord : Obligations.StepRunsThePlacedWord := by
  intro s w i hwf hdec
  rw [decodeTableWord_eq, ← opAt_withFetchWord hwf] at hdec
  refine ⟨step_of_decodeWord rfl (fetchAddr_le s) hdec, rfl, fetchAddr_of_le, fun a h0 h1 => ?_⟩
  have hbyte : (s.withFetchWord 16 w).mem.byte a = s.mem.byte a :=
    (byte_withFetchWord hwf w a).trans ((if_neg h0).trans (if_neg h1))
  simp only [Memory.read, hbyte]

end Sys2Proof.Machine
end

section
/-! # The other control-flow instructions, one state each (spec/40_control_flow.md R100, R102, R104, R105, R108, R109) -/

namespace Sys2Proof

/-! ## Words whose address is written in two fields, or whose fourth nibble must be 0 -/

/-- `x` and `kk` side by side are the 12 bits of `nnn` (R71, R73). -/
theorem wordXkk_eq_wordNnn (c x : Nibble) (kk : Byte) : wordXkk c x kk = wordNnn c (x ++ kk) := by
  apply BitVec.eq_of_toNat_eq
  rw [toNat_wordXkk, toNat_wordNnn, toNat_append_eq]
  omega

theorem jpVx_wellFormed (x : Nibble) (kk : Byte) : (Instr.jpVx x (x ++ kk)).wellFormed = true := by
  have hx : x = (x ++ kk : Addr12).extractLsb' 8 4 := by
    rw [← fieldX_wordNnn 0xB#4, ← wordXkk_eq_wordNnn, fieldX_wordXkk]
  exact beq_iff_eq.mpr hx

theorem decodeWord_jpVx (x : Nibble) (kk : Byte) : decodeWord (wordXkk 0xB#4 x kk) = some (.jpVx x (x ++ kk)) := by
  have hdec := decodeWord_encode (jpVx_wellFormed x kk)
  rwa [encode, ← wordXkk_eq_wordNnn] at hdec

theorem decodeWord_class5 (x y d : Nibble) :
    decodeWord (word4 0x5#4 x y d) = if d = 0#4 then some (.seReg x y) else none := by
  simp [decodeWord]

theorem decodeWord_class9 (x y d : Nibble) :
    decodeWord (word4 0x9#4 x y d) = if d = 0#4 then some (.sneReg x y) else none := by
  simp [decodeWord]

end Sys2Proof

namespace Sys2Proof.Machine

/-! ## What the instructions answer -/

theorem exec_halt (s : State) : exec .halt s = .next { s with pc := s.pc + 2#16, status := .halted } := rfl

/-- RET with a pending call takes the top entry, which stays in place (R102, decision D17). -/
theorem exec_ret_of_succ {s : State} {k : Fin 16} (h : s.sp = k.succ) :
    exec .ret s = .next { s with sp := k.castSucc, pc := s.stack[k.val] } := by
  have hk : s.sp.val - 1 = k.val := by rw [h]; rfl
  have hpos : 0 < s.sp.val := by rw [h]; exact Nat.succ_pos _
  simp only [exec, execRet, pop_of_pos hpos, hk]
  rfl

theorem exec_ret_empty {s : State} (h : s.sp = 0) :
    exec .ret s = .next (raise (.stackUnderflow 0x00EE#16 s.pc) s) := by
  simp only [exec, execRet, pop_empty (congrArg Fin.val h)]
  rfl

/-- CALL with room on the stack, by the index of the entry it writes (R104). -/
theorem exec_call_of_castSucc (nnn : Addr12) {s : State} {k : Fin 16} (h : s.sp = k.castSucc) :
    exec (.call nnn) s =
      .next { s with stack := s.stack.set k.val (s.pc + 2#16), sp := k.succ, pc := 0#4 ++ nnn } := by
  have hk : s.sp.val = k.val := congrArg Fin.val h
  rw [exec_call_of_lt nnn (hk ▸ k.isLt)]
  simp only [hk]
  rfl

/-- The sum of R105 needs no more than 16 bits, and none is cut off (decision D2). -/
theorem toNat_indexedTarget (nnn : Addr12) (b : Byte) : (indexedTarget nnn b).toNat = nnn.toNat + b.toNat := by
  have hnnn := nnn.isLt
  have hb := b.isLt
  simp only [indexedTarget, zextAddr, zextByte, BitVec.toNat_add, BitVec.toNat_setWidth]
  omega

theorem exec_jpVx (x : Nibble) (nnn : Addr12) (s : State) :
    exec (.jpVx x nnn) s = .next { s with pc := indexedTarget nnn (s.readV x) } := rfl

theorem exec_seReg (x y : Nibble) (s : State) :
    exec (.seReg x y) s =
      .next { s with pc := if s.readV x = s.readV y then s.pc + 2#16 + 2#16 else s.pc + 2#16 } :=
  congrArg Host.Outcome.next (skipIf_of_iff beq_iff_eq s)

theorem exec_sneReg (x y : Nibble) (s : State) :
    exec (.sneReg x y) s =
      .next { s with pc := if s.readV x ≠ s.readV y then s.pc + 2#16 + 2#16 else s.pc + 2#16 } :=
  congrArg Host.Outcome.next (skipIf_of_iff bne_iff_ne s)

/-! ## The obligations -/

/-- Settles O15. -/
theorem haltAdvancesAndHalts : Obligations.HaltAdvancesAndHalts :=
  ⟨decodeWord_encode (i := .halt) rfl, exec_halt⟩

/-- Settles O17. -/
theorem retPopsOrUnderflows : Obligations.RetPopsOrUnderflows :=
  ⟨decodeWord_encode (i := .ret) rfl, fun _ _ => exec_ret_of_succ, fun _ => exec_ret_empty⟩

/-- Settles O19. -/
theorem callPushesOrOverflows : Obligations.CallPushesOrOverflows :=
  fun nnn => ⟨decodeWord_encode (i := .call nnn) rfl, fun _ _ => exec_call_of_castSucc nnn,
    fun _ hsp => exec_call_full nnn (congrArg Fin.val hsp)⟩

/-- Settles O20: the sum has no carry out of its 16 bits. -/
theorem jpVxAddsTheRegister : Obligations.JpVxAddsTheRegister :=
  fun x kk => ⟨decodeWord_jpVx x kk, fun s => ⟨_, exec_jpVx x (x ++ kk) s, rfl, toNat_indexedTarget _ _⟩⟩

/-- Settles O22. -/
theorem registerSkips : Obligations.RegisterSkips :=
  fun x y d => ⟨decodeWord_class5 x y d, decodeWord_class9 x y d, fun s => ⟨exec_seReg x y s, exec_sneReg x y s⟩⟩

end Sys2Proof.Machine
end

section
/-! # Instructions that write a flag, and RND (spec/41_arithmetic.md R137 to R141, R143)

Five of them answer `writeResultFlag` of a result and a flag, so one lemma (`exec_writes_flag`) gives the frame and the
register file of them all, VF being written last (R130, decision D6); each adds which two bytes they are, in numbers. -/

namespace Sys2Proof.Machine

/-! ## Results and flags as numbers (R144) -/

theorem flagByte_of_iff {c : Bool} {p : Prop} [Decidable p] (h : c = true ↔ p) :
    flagByte c = if p then 1#8 else 0#8 := by
  simp only [← h]
  rfl

theorem toNat_flagByte {c : Bool} {p : Prop} [Decidable p] (h : c = true ↔ p) :
    (flagByte c).toNat = if p then 1 else 0 := by
  rw [flagByte_of_iff h, apply_ite BitVec.toNat]
  rfl

theorem toNat_carryFlag (a b : Byte) : (carryFlag a b).toNat = if a.toNat + b.toNat > 255 then 1 else 0 :=
  toNat_flagByte decide_eq_true_iff

theorem toNat_noBorrowFlag (a b : Byte) : (noBorrowFlag a b).toNat = if a.toNat ≥ b.toNat then 1 else 0 :=
  toNat_flagByte decide_eq_true_iff

/-- The result of a subtraction, over the integers (R138). -/
theorem toInt_subResult (a b : Byte) : ((subResult a b).toNat : Int) = ((a.toNat : Int) - b.toNat) % 256 := by
  have ha := a.isLt
  have hb := b.isLt
  simp only [subResult, u8, BitVec.toNat_ofNat]
  omega

theorem toNat_shrResult (a : Byte) : (shrResult a).toNat = a.toNat / 2 := by
  have ha := a.isLt
  simp only [shrResult, u8, BitVec.toNat_ofNat, Nat.shiftRight_eq_div_pow]
  omega

/-- A flag that is a bit of a byte. -/
theorem toNat_flagByte_getLsbD (a : Byte) (i : Nat) : (flagByte (a.getLsbD i)).toNat = a.toNat / 2 ^ i % 2 := by
  have hbit : a.getLsbD i = true ↔ a.toNat / 2 ^ i % 2 = 1 := by
    rw [BitVec.getLsbD, Nat.testBit_eq_decide_div_mod_eq, decide_eq_true_iff]
  rw [toNat_flagByte hbit]
  split <;> omega

theorem toNat_shrFlag (a : Byte) : (shrFlag a).toNat = a.toNat % 2 := by
  rw [shrFlag, toNat_flagByte_getLsbD, pow_zero, Nat.div_one]

theorem toNat_shlResult (a : Byte) : (shlResult a).toNat = 2 * a.toNat % 256 := by
  simp only [shlResult, u8, BitVec.toNat_ofNat, Nat.shiftLeft_eq]
  omega

theorem toNat_shlFlag (a : Byte) : (shlFlag a).toNat = a.toNat / 128 := by
  have ha := a.isLt
  rw [shlFlag, toNat_flagByte_getLsbD]
  omega

/-! ## What the instructions answer -/

theorem exec_addReg (x y : Nibble) (s : State) :
    exec (.addReg x y) s =
      .next (writeResultFlag x (addResult (s.readV x) (s.readV y)) (carryFlag (s.readV x) (s.readV y)) s) := rfl

theorem exec_sub (x y : Nibble) (s : State) :
    exec (.sub x y) s =
      .next (writeResultFlag x (subResult (s.readV x) (s.readV y)) (noBorrowFlag (s.readV x) (s.readV y)) s) := rfl

theorem exec_shr (x y : Nibble) (s : State) :
    exec (.shr x y) s = .next (writeResultFlag x (shrResult (s.readV x)) (shrFlag (s.readV x)) s) := rfl

theorem exec_subn (x y : Nibble) (s : State) :
    exec (.subn x y) s =
      .next (writeResultFlag x (subResult (s.readV y) (s.readV x)) (noBorrowFlag (s.readV y) (s.readV x)) s) := rfl

theorem exec_shl (x y : Nibble) (s : State) :
    exec (.shl x y) s = .next (writeResultFlag x (shlResult (s.readV x)) (shlFlag (s.readV x)) s) := rfl

/-- An instruction that answers `writeResultFlag x b f` leaves `f` in VF, `b` in `V[x]` where that is not VF, keeps every
other register, and changes nothing else but the pc. -/
theorem exec_writes_flag {i : Instr} {x : Nibble} {b f : Byte} {s : State}
    (h : exec i s = .next (writeResultFlag x b f s)) :
    ∃ t, exec i s = .next t ∧ t = { s with pc := s.pc + 2#16, V := t.V } ∧
      ∀ r, t.readV r = if r = 0xF#4 then f else if r = x then b else s.readV r :=
  ⟨writeResultFlag x b f s, h, rfl, readV_writeResultFlag s x b f⟩

/-- The same with the registers read as numbers. -/
theorem exec_writes_flag_toNat {i : Instr} {x : Nibble} {b f : Byte} {s : State} {m n : Nat}
    (h : exec i s = .next (writeResultFlag x b f s)) (hf : f.toNat = m) (hb : b.toNat = n) :
    ∃ t, exec i s = .next t ∧ t = { s with pc := s.pc + 2#16, V := t.V } ∧
      ∀ r, (t.readV r).toNat = if r = 0xF#4 then m else if r = x then n else (s.readV r).toNat := by
  obtain ⟨t, hexec, hframe, hV⟩ := exec_writes_flag h
  refine ⟨t, hexec, hframe, fun r => ?_⟩
  rw [hV r, apply_ite BitVec.toNat, apply_ite BitVec.toNat, hf, hb]

/-- A subtraction of `b` from `a` into `V[x]`, over the integers (R138, R140). -/
theorem exec_subtracts {i : Instr} {x : Nibble} {a b : Byte} {s : State}
    (h : exec i s = .next (writeResultFlag x (subResult a b) (noBorrowFlag a b) s)) :
    ∃ t, exec i s = .next t ∧ t = { s with pc := s.pc + 2#16, V := t.V } ∧
      ∀ r, ((t.readV r).toNat : Int) =
        if r = 0xF#4 then (if a.toNat ≥ b.toNat then 1 else 0)
        else if r = x then (a.toNat - b.toNat : Int) % 256
        else (s.readV r).toNat := by
  obtain ⟨t, hexec, hframe, hV⟩ := exec_writes_flag_toNat h (toNat_noBorrowFlag a b) rfl
  refine ⟨t, hexec, hframe, fun r => ?_⟩
  rw [hV r, ← toInt_subResult]
  split_ifs <;> rfl

/-! ## The obligations -/

/-- Settles O28. -/
theorem addSetsCarry : Obligations.AddSetsCarry :=
  fun x y => ⟨decodeWord_encode (i := .addReg x y) rfl, fun s =>
    exec_writes_flag_toNat (exec_addReg x y s) (toNat_carryFlag _ _) (toNat_addResult _ _)⟩

/-- Settles O30. -/
theorem shrShiftsRight : Obligations.ShrShiftsRight :=
  fun x y => ⟨decodeWord_encode (i := .shr x y) rfl, fun s =>
    exec_writes_flag_toNat (exec_shr x y s) (toNat_shrFlag _) (toNat_shrResult _)⟩

/-- Settles O32. -/
theorem shlShiftsLeft : Obligations.ShlShiftsLeft :=
  fun x y => ⟨decodeWord_encode (i := .shl x y) rfl, fun s =>
    exec_writes_flag_toNat (exec_shl x y s) (toNat_shlFlag _) (toNat_shlResult _)⟩

/-- Settles O29. -/
theorem subSetsNoBorrow : Obligations.SubSetsNoBorrow :=
  fun x y => ⟨decodeWord_encode (i := .sub x y) rfl, fun s => exec_subtracts (exec_sub x y s)⟩

/-- Settles O31: SUB with the operands exchanged. -/
theorem subnSetsNoBorrow : Obligations.SubnSetsNoBorrow :=
  fun x y => ⟨decodeWord_encode (i := .subn x y) rfl, fun s => exec_subtracts (exec_subn x y s)⟩

/-- Settles O34: the draw changes the RAND position only, and the write is then that of a load. -/
theorem rndMasksTheNextByte : Obligations.RndMasksTheNextByte :=
  fun x kk => ⟨decodeWord_encode (i := .rnd x kk) rfl, fun s =>
    ⟨_, exec_rnd x kk s, rfl, readV_writeResult (s.setRandPos (s.randPos + 1)) x _⟩⟩

end Sys2Proof.Machine
end

section
/-! # Drawing (spec/42_draw.md R162 to R167)

The sprite loop is one drawing of the closed form `spriteBit` (`blit_draws_spriteBit`), so a completed DRW is an XOR of
that form, and the same form drawn twice cancels. -/

namespace Sys2Proof.Machine

/-! ## The sprite bytes -/

/-- The sprite DRW draws from a state, as a bit over each pixel (R164). -/
def State.sprite (s : State) (x y n : Nibble) : Fin 64 → Fin 32 → Bool :=
  spriteBit s.mem s.I.toNat (startColumn (s.readV x)) (startRow (s.readV y)) n.toNat

/-- The blit of the bytes read from memory draws `spriteBit`, a row that is not in the list being below the sprite. -/
theorem blit_draws_spriteBit (m : Memory) (i x0 y0 n : Nat) (fb : Framebuffer) :
    Drawn (spriteBit m i x0 y0 n) ⟨fb, false⟩ (blit x0 y0 ((List.range n).map fun r => m.byte (i + r)) fb) := by
  have hdrawn := blit_drawn x0 y0 ((List.range n).map fun r => m.byte (i + r)) fb
  have hbits : (fun (px : Fin 64) (py : Fin 32) =>
      decide (x0 ≤ px.val ∧ px.val < x0 + 8 ∧ y0 ≤ py.val ∧
          py.val < y0 + ((List.range n).map fun r => m.byte (i + r)).length) &&
        (((List.range n).map fun r => m.byte (i + r)).getD (py.val - y0) 0#8).getLsbD (7 - (px.val - x0))) =
      spriteBit m i x0 y0 n := by
    funext px py
    rw [List.length_map, List.length_range, spriteBit]
    by_cases hin : x0 ≤ px.val ∧ px.val < x0 + 8 ∧ y0 ≤ py.val ∧ py.val < y0 + n
    · have hrow : py.val - y0 < n := by omega
      simp [hrow]
    · simp only [decide_eq_false hin, Bool.false_and]
  rwa [hbits] at hdrawn

/-- The sprite bits depend on the sprite's own bytes only. -/
theorem spriteBit_congr {m m' : Memory} {i n : Nat} (h : ∀ k < n, m'.byte (i + k) = m.byte (i + k)) (x0 y0 : Nat) :
    spriteBit m' i x0 y0 n = spriteBit m i x0 y0 n := by
  funext px py
  by_cases hin : x0 ≤ px.val ∧ px.val < x0 + 8 ∧ y0 ≤ py.val ∧ py.val < y0 + n
  · simp only [spriteBit, h (py.val - y0) (by omega)]
  · simp only [spriteBit, decide_eq_false hin, Bool.false_and]

/-- On a framebuffer without collisions so far, the collision is a set bit over a pixel that is on (R166). -/
theorem Drawn.collided_iff {bits : Fin 64 → Fin 32 → Bool} {fb : Framebuffer} {d : Canvas}
    (h : Drawn bits ⟨fb, false⟩ d) :
    d.collided = true ↔ ∃ px py, bits px py = true ∧ fb.pixel px py = true := by
  simpa using h.collided

/-! ## DRW, with the sprite in memory and without -/

/-- A DRW whose sprite lies in memory XORs it into the pixels, the flag of VF being the collision (R162, R166). -/
theorem exec_drw_of_le (x y n : Nibble) {s : State} (h : n.toNat = 0 ∨ s.I.toNat + n.toNat ≤ 4096) :
    ∃ t, exec (.drw x y n) s = .next t ∧ t = { s with pc := s.pc + 2#16, V := t.V, FB := t.FB } ∧
      (∀ px py, t.FB.pixel px py = (s.FB.pixel px py ^^ s.sprite x y n px py)) ∧
      ∀ r, t.readV r =
        if r = 0xF#4 then
          (if ∃ px py, s.sprite x y n px py = true ∧ s.FB.pixel px py = true then 1#8 else 0#8)
        else s.readV r := by
  have hdrawn : Drawn (s.sprite x y n) ⟨s.FB, false⟩ _ := blit_draws_spriteBit ..
  refine ⟨_, by simp only [exec, execDrw, memRead_of_le h]; rfl, rfl, hdrawn.pixel, fun r => ?_⟩
  rw [readV_writeV, readV_setFB, readV_advance, regF, collisionFlag, flagByte_of_iff hdrawn.collided_iff]

/-- A DRW whose sprite leaves memory (R162, decisions D1, D7 and D22). -/
theorem exec_drw_of_gt (x y n : Nibble) {s : State} (h : 0 < n.toNat ∧ 4096 < s.I.toNat + n.toNat) :
    exec (.drw x y n) s =
      .next (raise (.addressFault s.pc (BitVec.ofNat 16 (max s.I.toNat 4096)) (some (0xD#4 ++ x ++ y ++ n))) s) := by
  simp only [exec, execDrw, memRead_of_gt h]
  rfl

/-! ## The obligations -/

/-- Settles O36. -/
theorem drwXorsTheClippedSprite : Obligations.DrwXorsTheClippedSprite :=
  fun x y n => ⟨decodeWord_encode (i := .drw x y n) rfl, fun _ => exec_drw_of_le x y n⟩

/-- Settles O37. -/
theorem drwOutsideMemoryFaults : Obligations.DrwOutsideMemoryFaults :=
  fun x y n _ hpos hgt => exec_drw_of_gt x y n ⟨hpos, hgt⟩

/-- Settles O38: the second drawing is of the same bits, an XOR with which undoes the first; it finds a pixel on under a
set bit exactly where the first one turned that pixel on. -/
theorem drawingTwiceRestores : Obligations.DrawingTwiceRestores := by
  intro x y n s t u hle hst hFB hI hx hy hbytes
  have hsprite : u.sprite x y n = s.sprite x y n := by
    simp only [State.sprite, hI, hx, hy, spriteBit_congr hbytes]
  obtain ⟨t', hexec, -, hpixel, -⟩ := exec_drw_of_le x y n hle
  obtain rfl : t' = t := Host.Outcome.next.inj (hexec.symm.trans hst)
  obtain ⟨w, hexec', -, hpixel', hV⟩ := exec_drw_of_le x y n (s := u) (by rwa [hI])
  rw [hsprite, hFB] at hpixel' hV
  have hVF := (hV 0xF#4).trans (if_pos rfl)
  refine ⟨w, hexec', fun px py => ?_, ?_, ?_⟩
  · rw [hpixel', hpixel, Bool.xor_assoc, Bool.xor_self, Bool.xor_false]
  · rw [hVF]
    exact ite_eq_or_eq _ _ _
  · have hturned : ∀ px py, (s.sprite x y n px py = true ∧ t'.FB.pixel px py = true) ↔
        (s.FB.pixel px py = false ∧ t'.FB.pixel px py = true) := by
      intro px py
      rw [hpixel]
      cases s.FB.pixel px py <;> cases s.sprite x y n px py <;> decide
    rw [hVF]
    simp [hturned]

end Sys2Proof.Machine
end

section
/-! # Memory reads, canonical memories and the loader (spec/20_memory.md R51, spec/70_reset_and_hazards.md R232) -/

namespace Sys2Proof.Machine

theorem read_of_lt {m : Memory} {a : Nat} (h : a < 4096) : m.read a = some (m.byte a) := if_pos h

/-! ## Canonical memories -/

/-- The first address that a canonical memory lists does not read as unlisted. -/
theorem byte_ne_unlisted_of_head {k : Nat} {b : Byte} {m : Memory} (h : Memory.wf ((k, b) :: m)) :
    Memory.byte ((k, b) :: m) k ≠ Memory.unlisted := by
  obtain ⟨-, hne⟩ := h.2 (k, b) List.mem_cons_self
  rwa [Memory.byte, if_pos rfl]

/-- The entries after the first one list nothing up to its address. -/
theorem byte_tail_of_le_head {k : Nat} {b : Byte} {m : Memory} (h : Memory.wf ((k, b) :: m)) {a : Nat} (ha : a ≤ k) :
    m.byte a = Memory.unlisted :=
  byte_of_lt fun c hc => Nat.lt_of_le_of_lt ha ((List.pairwise_cons.mp h.1).1 c hc)

/-- A canonical memory lists nothing below its first address. -/
theorem byte_of_lt_head {j k : Nat} {b : Byte} {m : Memory} (h : Memory.wf ((k, b) :: m)) (hj : j < k) :
    Memory.byte ((k, b) :: m) j = Memory.unlisted := by
  rw [Memory.byte, if_neg (Nat.ne_of_gt hj)]
  exact byte_tail_of_le_head h (Nat.le_of_lt hj)

theorem byte_above_of_head {k : Nat} {b : Byte} {m : Memory} {a : Nat} (h : a ≠ k) :
    Memory.byte ((k, b) :: m) a = m.byte a := if_neg h.symm

/-- Canonical memories that read alike list the same entries: the first entry is what the lowest address that does not
read as unlisted holds, and so on up. -/
theorem eq_of_byte_eq {m m' : Memory} (h : m.wf) (h' : m'.wf) (hbyte : ∀ a, m.byte a = m'.byte a) : m = m' := by
  induction m generalizing m' with
  | nil =>
    cases m' with
    | nil => rfl
    | cons c' m' => exact absurd (hbyte c'.1).symm (byte_ne_unlisted_of_head h')
  | cons c m ih =>
    cases m' with
    | nil => exact absurd (hbyte c.1) (byte_ne_unlisted_of_head h)
    | cons c' m' =>
      obtain ⟨k, b⟩ := c
      obtain ⟨k', b'⟩ := c'
      obtain hlt | rfl | hgt := Nat.lt_trichotomy k k'
      · exact absurd ((hbyte k).trans (byte_of_lt_head h' hlt)) (byte_ne_unlisted_of_head h)
      · have hb : b = b' := by simpa [Memory.byte] using hbyte k
        have htail : m = m' := by
          refine ih (wf_tail h) (wf_tail h') fun a => ?_
          by_cases ha : a = k
          · rw [ha, byte_tail_of_le_head h le_rfl, byte_tail_of_le_head h' le_rfl]
          · rw [← byte_above_of_head ha, hbyte a, byte_above_of_head ha]
        rw [hb, htail]
      · exact absurd ((hbyte k').symm.trans (byte_of_lt_head h hgt)) (byte_ne_unlisted_of_head h')

/-- Nothing is listed outside the space. -/
theorem byte_of_ge {m : Memory} (h : m.wf) {a : Nat} (ha : 4096 ≤ a) : m.byte a = Memory.unlisted := by
  induction m with
  | nil => rfl
  | cons c m ih =>
    have hc : c.1 < 4096 := (h.2 c List.mem_cons_self).1
    rw [byte_above_of_head (Nat.ne_of_gt (Nat.lt_of_lt_of_le hc ha)), ih (wf_tail h)]

/-! ## The loader -/

theorem loadImage_of_le {img : List Byte} (h1 : 1 ≤ img.length) (h2 : img.length ≤ 3584) :
    loadImage img = .ok (Memory.writeBytes [] Config.loadAddr img) := by
  have hne : img.length ≠ 0 := Nat.ne_of_gt h1
  rw [loadImage, if_neg hne, if_neg (Nat.not_lt.mpr h2)]

/-- The bytes of the loaded image, and zero around it (R232). -/
theorem byte_loadedImage {img : List Byte} (h : img.length ≤ 3584) (a : Nat) :
    (Memory.writeBytes [] Config.loadAddr img).byte a =
      if 0x200 ≤ a then (img[a - 0x200]?).getD 0x00#8 else 0x00#8 := by
  rw [byte_writeBytes wf_nil (by simp only [Config.loadAddr, Config.memSize]; omega), Memory.byte, Memory.unlisted]
  by_cases hin : 0x200 ≤ a ∧ a < 0x200 + img.length
  · have hidx : a - 0x200 < img.length := by omega
    rw [dif_pos hin, if_pos hin.1, List.getElem?_eq_getElem hidx, Option.getD_some]
  · rw [dif_neg hin]
    split
    next hle => rw [List.getElem?_eq_none (by omega), Option.getD_none]
    next => rfl

/-! ## The obligations -/

/-- Settles O46. -/
theorem memReadIsBoundsChecked : Obligations.MemReadIsBoundsChecked := by
  refine fun m addr n => ⟨fun ⟨k, hk, hout⟩ => memRead_of_gt (by omega), fun hin => ?_⟩
  have hle : n = 0 ∨ addr + n ≤ 4096 := by
    obtain rfl | hpos := Nat.eq_zero_or_pos n
    · exact .inl rfl
    · have := hin (n - 1) (by omega)
      omega
  refine ⟨_, memRead_of_le hle, by simp, fun k hk => ?_⟩
  rw [read_of_lt (hin k hk)]
  simp [hk]

/-- Settles O47: outside the space both read as unlisted, so the two memories read alike at every number. -/
theorem canonicalMemoriesAreEqual : Obligations.CanonicalMemoriesAreEqual := by
  refine fun m m' h h' hread => eq_of_byte_eq h h' fun a => ?_
  by_cases ha : a < 4096
  · simpa [read_of_lt ha] using hread a ha
  · rw [byte_of_ge h (by omega), byte_of_ge h' (by omega)]

/-- Settles O51. -/
theorem loaderPlacesTheImage : Obligations.LoaderPlacesTheImage := by
  intro img h1 h2
  have hload := loadImage_of_le h1 h2
  refine ⟨_, hload, by simp only [launch, hload], loadImage_wf hload, fun a ha => ?_⟩
  rw [read_of_lt ha, byte_loadedImage h2]

end Sys2Proof.Machine
end

section
/-! # Construction (spec/10_state.md R38, spec/70_reset_and_hazards.md R230) -/

namespace Sys2Proof.Machine

/-- The reset stack holds zeroes (decision D17). -/
@[simp] theorem construct_stack (mem0 : Memory) (k : Fin 16) : (construct mem0).stack[k.val] = 0x0000#16 :=
  Vector.getElem_replicate k.isLt

@[simp] theorem readV_construct (mem0 : Memory) (r : Nibble) : (construct mem0).readV r = 0x00#8 :=
  Vector.getElem_replicate r.isLt

theorem construct_inv {mem0 : Memory} (h : mem0.wf) : (construct mem0).Inv where
  mem_wf := h
  I_le := Nat.zero_le _
  pc_le := show (0x0200#16).toNat ≤ 0x10FE by decide
  stack_le k := by simp

/-- Settles O50: no pixel is on in the framebuffer that clear() leaves, which is that of the reset. -/
theorem resetValues : Obligations.ResetValues :=
  ⟨rfl, fun mem0 => ⟨readV_construct mem0, rfl, rfl, construct_stack mem0, rfl, rfl, pixel_cleared, rfl⟩⟩

/-- Settles O48: State.reset is construction from the memory without entries, which is canonical. -/
theorem constructionMeetsTheInvariant : Obligations.ConstructionMeetsTheInvariant :=
  ⟨construct_inv wf_nil, fun _ => construct_inv⟩

end Sys2Proof.Machine
end

section
/-! # When an instruction faults, and the pc where it does not (spec/10_state.md R26, spec/60_exceptions.md R200 to R208)

`ownFault` names the fault an instruction raises in a state. Where there is one, `exec` takes it and nothing else
(`exec_of_ownFault`); where there is none, the instruction completes with the table's pc (`exec_completes`). What a step
can fault with, and that it commits nothing then, follows. -/

namespace Sys2Proof.Machine

/-- The fault that an instruction raises itself, with its record: CALL on a full stack, RET on an empty one, DRW with a
sprite that leaves memory (R202 to R205). -/
def ownFault (i : Instr) (s : State) : Option FaultReason :=
  match i with
  | .call _ => if s.sp.val = 16 then some (.stackOverflow (encode i) s.pc) else none
  | .ret => if s.sp.val = 0 then some (.stackUnderflow (encode i) s.pc) else none
  | .drw _ _ n =>
    if 0 < n.toNat ∧ 4096 < s.I.toNat + n.toNat then
      some (.addressFault s.pc (BitVec.ofNat 16 (max s.I.toNat 4096)) (some (encode i)))
    else none
  | _ => none

/-- The three ways an instruction faults by itself, each with its record (R202 to R205). -/
theorem ownFault_eq_some {i : Instr} {s : State} {r : FaultReason} :
    ownFault i s = some r ↔
      (s.sp.val = 16 ∧ (∃ nnn, i = .call nnn) ∧ r = .stackOverflow (encode i) s.pc) ∨
      (s.sp.val = 0 ∧ i = .ret ∧ r = .stackUnderflow (encode i) s.pc) ∨
      ((∃ x y n, i = .drw x y n ∧ 0 < n.toNat ∧ 4096 < s.I.toNat + n.toNat) ∧
        r = .addressFault s.pc (BitVec.ofNat 16 (max s.I.toNat 4096)) (some (encode i))) := by
  cases i with
  | call | ret | drw => simp [ownFault, and_assoc, eq_comm (a := r)]
  | _ => simp [ownFault]

/-! ## What the absence of a fault says -/

theorem sp_lt_of_ownFault_none {nnn : Addr12} {s : State} (h : ownFault (.call nnn) s = none) : s.sp.val < 16 := by
  have hne : s.sp.val ≠ 16 := by simpa [ownFault] using h
  omega

theorem sp_succ_of_ownFault_none {s : State} (h : ownFault .ret s = none) : ∃ k : Fin 16, s.sp = k.succ := by
  have hne : s.sp ≠ 0 := by simpa [ownFault] using h
  obtain ⟨k, hk⟩ := Fin.exists_succ_eq.mpr hne
  exact ⟨k, hk.symm⟩

theorem sprite_le_of_ownFault_none {x y n : Nibble} {s : State} (h : ownFault (.drw x y n) s = none) :
    n.toNat = 0 ∨ s.I.toNat + n.toNat ≤ 4096 := by
  simp only [ownFault, ite_eq_right_iff, reduceCtorEq, imp_false] at h
  omega

/-! ## The instruction with its own fault, and without -/

theorem exec_of_ownFault {i : Instr} {s : State} {r : FaultReason} (h : ownFault i s = some r) :
    exec i s = .next (raise r s) := by
  obtain ⟨hsp, ⟨nnn, rfl⟩, rfl⟩ | ⟨hsp, rfl, rfl⟩ | ⟨⟨x, y, n, rfl, hn⟩, rfl⟩ := ownFault_eq_some.mp h
  · exact exec_call_full nnn hsp
  · exact exec_ret_empty (Fin.ext hsp)
  · exact exec_drw_of_gt x y n hn

/-- The pieces of state, beside the pc, that an instruction may write where it completes (10_state.md R23, R24, R29,
R31, R33, R37); every other piece is as before. -/
def WritesOnly (i : Instr) (s t : State) : Prop :=
  match i with
  | .halt => t = { s with pc := t.pc, status := t.status }
  | .cls => t = { s with pc := t.pc, FB := t.FB }
  | .ret => t = { s with pc := t.pc, sp := t.sp }
  | .call _ => t = { s with pc := t.pc, sp := t.sp, stack := t.stack }
  | .ldI _ => t = { s with pc := t.pc, I := t.I }
  | .rnd _ _ => t = { s with pc := t.pc, V := t.V, randPos := s.randPos + 1 }
  | .drw _ _ _ => t = { s with pc := t.pc, V := t.V, FB := t.FB }
  | _ => t = { s with pc := t.pc, V := t.V }

/-- What completing leaves: only HALT changes the status, the pc is the table's (R26), and the frame is kept. -/
structure Completed (i : Instr) (s t : State) : Prop where
  status : t.status = if i = .halt then .halted else s.status
  pc : i.wellFormed = true → t.pc = pcAfter i s
  frame : WritesOnly i s t

/-- An instruction that raises no fault completes. -/
theorem exec_completes {i : Instr} {s : State} (h : ownFault i s = none) : ∃ t, exec i s = .next t ∧ Completed i s t := by
  cases i with
  | ret =>
    obtain ⟨k, hk⟩ := sp_succ_of_ownFault_none h
    refine ⟨_, exec_ret_of_succ hk, rfl, fun _ => ?_, rfl⟩
    simp [pcAfter, hk]
  | call nnn => exact ⟨_, exec_call_of_lt nnn (sp_lt_of_ownFault_none h), rfl, fun _ => rfl, rfl⟩
  | drw x y n =>
    obtain ⟨t, hexec, hframe, -, -⟩ := exec_drw_of_le x y n (sprite_le_of_ownFault_none h)
    exact ⟨t, hexec, by rw [hframe]; rfl, fun _ => by rw [hframe]; rfl, by rw [WritesOnly, hframe]⟩
  | halt => exact ⟨_, exec_halt s, rfl, fun _ => rfl, rfl⟩
  | cls => exact ⟨_, exec_cls s, rfl, fun _ => rfl, rfl⟩
  | ldI nnn => exact ⟨_, exec_ldI nnn s, rfl, fun _ => rfl, rfl⟩
  | jp nnn => exact ⟨_, exec_jp nnn s, rfl, fun _ => rfl, rfl⟩
  | jpVx x nnn =>
    refine ⟨_, exec_jpVx x nnn s, rfl, fun hwf => ?_, rfl⟩
    have hx : x = nnn.extractLsb' 8 4 := beq_iff_eq.mp hwf
    rw [pcAfter, ← hx, ← toNat_indexedTarget, BitVec.ofNat_toNat, BitVec.setWidth_eq]
  | seImm x kk => exact ⟨_, exec_seImm x kk s, rfl, fun _ => by simp [pcAfter, BitVec.add_assoc], rfl⟩
  | sneImm x kk => exact ⟨_, exec_sneImm x kk s, rfl, fun _ => by simp [pcAfter, BitVec.add_assoc], rfl⟩
  | seReg x y => exact ⟨_, exec_seReg x y s, rfl, fun _ => by simp [pcAfter, BitVec.add_assoc], rfl⟩
  | sneReg x y => exact ⟨_, exec_sneReg x y s, rfl, fun _ => by simp [pcAfter, BitVec.add_assoc], rfl⟩
  | ldImm | addImm | ldReg | orReg | andReg | xorReg | rnd | addReg | sub | shr | subn | shl =>
    exact ⟨_, rfl, rfl, fun _ => rfl, rfl⟩

/-- Everything an instruction can answer: its own fault, or a state that has completed. -/
theorem exec_cases (i : Instr) (s : State) :
    (∃ r, ownFault i s = some r ∧ exec i s = .next (raise r s)) ∨
      ownFault i s = none ∧ ∃ t, exec i s = .next t ∧ Completed i s t := by
  cases h : ownFault i s with
  | some r => exact .inl ⟨r, rfl, exec_of_ownFault h⟩
  | none => exact .inr ⟨rfl, exec_completes h⟩

/-- What the state that an instruction answers can be. -/
theorem exec_inversion {i : Instr} {s t : State} (h : exec i s = .next t) :
    (∃ r, ownFault i s = some r ∧ t = raise r s) ∨ ownFault i s = none ∧ Completed i s t := by
  obtain ⟨r, hown, hexec⟩ | ⟨hnone, u, hexec, hdone⟩ := exec_cases i s
  · cases h.symm.trans hexec
    exact .inl ⟨r, hown, rfl⟩
  · cases h.symm.trans hexec
    exact .inr ⟨hnone, hdone⟩

/-- A machine that is Running when an instruction completes is not Faulted afterwards. -/
theorem Completed.not_faulted {i : Instr} {s t : State} (h : Completed i s t) (hrun : s.status = .running)
    (r : FaultReason) : t.status ≠ .faulted r := by
  rw [h.status, hrun]
  split <;> simp

/-- From Running an instruction ends Faulted exactly with its own fault. -/
theorem exec_faulted_iff {i : Instr} {s : State} {r : FaultReason} (hrun : s.status = .running) :
    (∃ t, exec i s = .next t ∧ t.status = .faulted r) ↔ ownFault i s = some r := by
  obtain ⟨q, hq, hexec⟩ | ⟨hnone, t, hexec, hdone⟩ := exec_cases i s
  · simp [hq, hexec]
  · simp [hnone, hexec, hdone.not_faulted hrun r]

/-! ## The step -/

/-- The step of a Running machine is a fault of the fetch or of the decoder, or the instruction (R86). -/
theorem step_of_running {s : State} (hrun : s.status = .running) :
    (4094 < s.pc.toNat ∧
        step s = .next (raise (.addressFault s.pc (BitVec.ofNat 16 (max s.pc.toNat 4096)) none) s)) ∨
      (s.pc.toNat ≤ 4094 ∧ decodeWord (opAt s) = none ∧ step s = .next (raise (.decodeFault (opAt s) s.pc) s)) ∨
      ∃ i, s.pc.toNat ≤ 4094 ∧ decodeWord (opAt s) = some i ∧ step s = exec i s := by
  obtain ⟨hpc, hfd⟩ | ⟨hpc, hdec, hfd⟩ | ⟨i, hpc, hdec, hfd⟩ := fetchDecode_cases s
  · exact .inl ⟨hpc, step_of_error hrun hfd⟩
  · exact .inr (.inl ⟨hpc, hdec, step_of_error hrun hfd⟩)
  · exact .inr (.inr ⟨i, hpc, hdec, step_of_ok hrun hfd⟩)

theorem exec_exists_next (i : Instr) (s : State) : ∃ t, exec i s = .next t := by
  obtain ⟨r, -, hexec⟩ | ⟨-, t, hexec, -⟩ := exec_cases i s
  · exact ⟨_, hexec⟩
  · exact ⟨t, hexec⟩

theorem step_exists_next {s : State} (hrun : s.status = .running) : ∃ t, step s = .next t := by
  obtain ⟨-, hstep⟩ | ⟨-, -, hstep⟩ | ⟨i, -, -, hstep⟩ := step_of_running hrun
  · exact ⟨_, hstep⟩
  · exact ⟨_, hstep⟩
  · rw [hstep]
    exact exec_exists_next i s

theorem step_of_halted {s : State} (h : s.status = .halted) : step s = .fault .noStepHalted := by
  simp only [step, noStep, h]

theorem step_of_faulted {s : State} {r : FaultReason} (h : s.status = .faulted r) :
    step s = .fault (.noStepFaulted r) := by
  simp only [step, noStep, h]

/-- When a step of a Running machine faults, the instruction's own fault left unexamined (R208, decision D23). -/
theorem step_faulted_iff {s : State} {r : FaultReason} (hrun : s.status = .running) :
    (∃ t, step s = .next t ∧ t.status = .faulted r) ↔
      (4094 < s.pc.toNat ∧ r = .addressFault s.pc (BitVec.ofNat 16 (max s.pc.toNat 4096)) none) ∨
      (s.pc.toNat ≤ 4094 ∧ decodeWord (opAt s) = none ∧ r = .decodeFault (opAt s) s.pc) ∨
      (s.pc.toNat ≤ 4094 ∧ ∃ i, decodeWord (opAt s) = some i ∧ ownFault i s = some r) := by
  obtain ⟨hpc, hstep⟩ | ⟨hpc, hdec, hstep⟩ | ⟨i, hpc, hdec, hstep⟩ := step_of_running hrun
  · simp [hstep, hpc, Nat.not_le.mpr hpc, eq_comm (a := r)]
  · simp [hstep, hpc, hdec, Nat.not_lt.mpr hpc, eq_comm (a := r)]
  · simp [hstep, hpc, hdec, Nat.not_lt.mpr hpc, exec_faulted_iff hrun]

/-! ## The obligations -/

/-- Settles O12. -/
theorem stepExistsExactlyFromRunning : Obligations.StepExistsExactlyFromRunning := by
  refine fun s => ⟨⟨fun ⟨_, hstep⟩ => (step_cases hstep).1, step_exists_next⟩, step_of_halted,
    fun _ => step_of_faulted, fun k hk => ?_⟩
  cases hs : s.status with
  | running =>
    obtain ⟨t, hstep⟩ := step_exists_next hs
    cases hk.symm.trans hstep
  | halted => cases hk.symm.trans (step_of_halted hs)
  | faulted r => cases hk.symm.trans (step_of_faulted hs)

/-- Settles O13: each of the three ways to fault is `raise`. -/
theorem faultingStepCommitsNothing : Obligations.FaultingStepCommitsNothing := by
  intro s t r hstep hstatus
  obtain ⟨hrun, ⟨-, rfl⟩ | ⟨-, -, rfl⟩ | ⟨i, -, -, hexec⟩⟩ := step_cases hstep
  · cases hstatus; rfl
  · cases hstatus; rfl
  · obtain ⟨q, -, rfl⟩ | ⟨-, hdone⟩ := exec_inversion hexec
    · cases hstatus; rfl
    · exact absurd hstatus (hdone.not_faulted hrun r)

/-- Settles O14: the instruction's own fault case by case, its record's opcode being the fetched word (O2, log 10). -/
theorem stepFaultsExactlyWhen : Obligations.StepFaultsExactlyWhen := by
  intro s r hrun
  rw [step_faulted_iff hrun]
  refine or_congr_right (or_congr_right ?_)
  cases hdec : decodeWord (opAt s) with
  | none => simp
  | some i =>
    obtain ⟨-, henc⟩ := encode_of_decodeWord hdec
    simp only [ownFault_eq_some, henc, Option.some.injEq, exists_eq_left']
    tauto

/-- Settles O41. -/
theorem pcTable : Obligations.PcTable := by
  intro s i hrun hwf
  obtain ⟨r, -, hexec⟩ | ⟨-, t, hexec, hdone⟩ := exec_cases i s
  · exact ⟨_, hexec, .inl ⟨⟨r, raise_status s r⟩, raise_pc s r⟩⟩
  · exact ⟨t, hexec, .inr ⟨hdone.not_faulted hrun, hdone.pc hwf⟩⟩

end Sys2Proof.Machine
end

section
/-! # Who writes what, and the invariant (spec/10_state.md R24, R28, R29, R31, R33, R37, spec/40_control_flow.md R102) -/

namespace Sys2Proof.Machine

/-! ## One field at a time -/

section
variable {i : Instr} {s t : State}

theorem exec_I (h : exec i s = .next t) : t.I = s.I ∨ ∃ nnn, i = .ldI nnn := by
  obtain ⟨r, -, rfl⟩ | ⟨-, -, -, hframe⟩ := exec_inversion h
  · exact .inl rfl
  · cases i with
    | ldI nnn => exact .inr ⟨nnn, rfl⟩
    | _ => simp only [WritesOnly] at hframe; exact .inl (by rw [hframe])

theorem exec_stack (h : exec i s = .next t) : t.stack = s.stack ∨ ∃ nnn, i = .call nnn := by
  obtain ⟨r, -, rfl⟩ | ⟨-, -, -, hframe⟩ := exec_inversion h
  · exact .inl rfl
  · cases i with
    | call nnn => exact .inr ⟨nnn, rfl⟩
    | _ => simp only [WritesOnly] at hframe; exact .inl (by rw [hframe])

theorem exec_sp (h : exec i s = .next t) : t.sp = s.sp ∨ i = .ret ∨ ∃ nnn, i = .call nnn := by
  obtain ⟨r, -, rfl⟩ | ⟨-, -, -, hframe⟩ := exec_inversion h
  · exact .inl rfl
  · cases i with
    | ret => exact .inr (.inl rfl)
    | call nnn => exact .inr (.inr ⟨nnn, rfl⟩)
    | _ => simp only [WritesOnly] at hframe; exact .inl (by rw [hframe])

theorem exec_FB (h : exec i s = .next t) : t.FB = s.FB ∨ i = .cls ∨ ∃ x y n, i = .drw x y n := by
  obtain ⟨r, -, rfl⟩ | ⟨-, -, -, hframe⟩ := exec_inversion h
  · exact .inl rfl
  · cases i with
    | cls => exact .inr (.inl rfl)
    | drw x y n => exact .inr (.inr ⟨x, y, n, rfl⟩)
    | _ => simp only [WritesOnly] at hframe; exact .inl (by rw [hframe])

theorem exec_status (h : exec i s = .next t) :
    t.status = s.status ∨ i = .halt ∨ i = .ret ∨ (∃ nnn, i = .call nnn) ∨ ∃ x y n, i = .drw x y n := by
  obtain ⟨r, hown, rfl⟩ | ⟨-, hdone⟩ := exec_inversion h
  · obtain ⟨-, hcall, -⟩ | ⟨-, hret, -⟩ | ⟨⟨x, y, n, hdrw, -⟩, -⟩ := ownFault_eq_some.mp hown
    · exact .inr (.inr (.inr (.inl hcall)))
    · exact .inr (.inr (.inl hret))
    · exact .inr (.inr (.inr (.inr ⟨x, y, n, hdrw⟩)))
  · by_cases hi : i = .halt
    · exact .inr (.inl hi)
    · exact .inl (hdone.status.trans (if_neg hi))

theorem exec_randPos_of_ne (hne : ∀ x kk, i ≠ .rnd x kk) (h : exec i s = .next t) : t.randPos = s.randPos := by
  obtain ⟨r, -, rfl⟩ | ⟨-, -, -, hframe⟩ := exec_inversion h
  · rfl
  · cases i with
    | rnd x kk => exact absurd rfl (hne x kk)
    | _ => simp only [WritesOnly] at hframe; rw [hframe]

theorem exec_rnd_randPos {x : Nibble} {kk : Byte} (h : exec (.rnd x kk) s = .next t) : t.randPos = s.randPos + 1 := by
  cases h
  rfl

end

/-- Settles O43, a field at a time. -/
theorem onlyTheNamedInstructionsWrite : Obligations.OnlyTheNamedInstructionsWrite := by
  intro i s t h
  have hmem : t.mem = s.mem := exec_mem h
  refine ⟨(exec_I h).resolve_left, (exec_stack h).resolve_left, (exec_sp h).resolve_left, (exec_FB h).resolve_left, ?_,
    (exec_status h).resolve_left, hmem, fun a => by rw [hmem]⟩
  split
  next hrnd =>
    obtain ⟨x, kk, rfl⟩ := hrnd
    exact exec_rnd_randPos h
  next hne => exact exec_randPos_of_ne (fun x kk hi => hne ⟨x, kk, hi⟩) h

/-! ## The invariant -/

theorem toNat_add_two {pc : Word} (h : pc.toNat ≤ 4094) : (pc + 2#16).toNat = pc.toNat + 2 := by bv_omega

theorem toNat_add_four {pc : Word} (h : pc.toNat ≤ 4094) : (pc + 4#16).toNat = pc.toNat + 4 := by bv_omega

theorem toNat_zero_append (nnn : Addr12) : (0#4 ++ nnn).toNat = nnn.toNat :=
  (toNat_append_eq 0#4 nnn).trans (Nat.zero_add _)

/-- The highest pc of R28: `nnn` and a register at their largest are 0xFFF + 0xFF. -/
theorem pcAfter_le {i : Instr} {s : State} (hpc : s.pc.toNat ≤ 4094)
    (hstack : ∀ k : Fin 16, (s.stack[k.val]).toNat ≤ 0x1000) : (pcAfter i s).toNat ≤ 0x10FE := by
  have hadvance : (s.pc + 2#16).toNat ≤ 0x10FE := by rw [toNat_add_two hpc]; omega
  have hskip : (s.pc + 4#16).toNat ≤ 0x10FE := by rw [toNat_add_four hpc]; omega
  have hjump (nnn : Addr12) : (0#4 ++ nnn).toNat ≤ 0x10FE := by
    have := nnn.isLt
    rw [toNat_zero_append]
    omega
  cases i with
  | jp nnn | call nnn => exact hjump nnn
  | jpVx x nnn =>
    have hnnn := nnn.isLt
    have hV := (s.readV (nnn.extractLsb' 8 4)).isLt
    rw [pcAfter, BitVec.toNat_ofNat]
    omega
  | ret =>
    rw [pcAfter]
    split
    next => omega
    next hne => exact (hstack ⟨s.sp.val - 1, by omega⟩).trans (by decide)
  | seImm x kk | sneImm x kk | seReg x y | sneReg x y =>
    rw [pcAfter]
    split
    next => exact hskip
    next => exact hadvance
  | _ => exact hadvance

/-- The entries stay within 0x1000, CALL's own entry being the advance of a pc at which a word was fetched (R102). -/
theorem exec_stack_le {i : Instr} {s t : State} (hpc : s.pc.toNat ≤ 4094)
    (hstack : ∀ k : Fin 16, (s.stack[k.val]).toNat ≤ 0x1000) (h : exec i s = .next t) (k : Fin 16) :
    (t.stack[k.val]).toNat ≤ 0x1000 := by
  obtain heq | ⟨nnn, rfl⟩ := exec_stack h
  · simpa only [heq] using hstack k
  by_cases hsp : s.sp.val < 16
  · cases h.symm.trans (exec_call_of_lt nnn hsp)
    have hentry : (s.pc + 2#16).toNat ≤ 0x1000 := by rw [toNat_add_two hpc]; omega
    simp only [Vector.getElem_set]
    split
    next => exact hentry
    next => exact hstack k
  · cases h.symm.trans (exec_call_full nnn (by omega))
    exact hstack k

theorem exec_I_le {i : Instr} {s t : State} (hI : s.I.toNat ≤ 0xFFF) (h : exec i s = .next t) : t.I.toNat ≤ 0xFFF := by
  obtain heq | ⟨nnn, rfl⟩ := exec_I h
  · rwa [heq]
  · cases h.symm.trans (exec_ldI nnn s)
    exact (toNat_zero_append nnn).trans_le (Nat.le_of_lt_succ nnn.isLt)

theorem exec_pc_le {i : Instr} {s t : State} (hwf : i.wellFormed = true) (hpc : s.pc.toNat ≤ 4094)
    (hstack : ∀ k : Fin 16, (s.stack[k.val]).toNat ≤ 0x1000) (h : exec i s = .next t) : t.pc.toNat ≤ 0x10FE := by
  obtain ⟨r, -, rfl⟩ | ⟨-, hdone⟩ := exec_inversion h
  · exact hpc.trans (by decide)
  · rw [hdone.pc hwf]
    exact pcAfter_le hpc hstack

/-- A fault keeps the invariant, because the status is no part of it. -/
theorem inv_raise {s : State} (h : s.Inv) (r : FaultReason) : (raise r s).Inv := ⟨h.mem_wf, h.I_le, h.pc_le, h.stack_le⟩

/-- Settles O49: an instruction is executed only where its word was fetched, at a pc of at most 4094. -/
theorem stepKeepsTheInvariant : Obligations.StepKeepsTheInvariant := by
  intro s t hinv hstep
  obtain ⟨-, ⟨-, rfl⟩ | ⟨-, -, rfl⟩ | ⟨i, hpc, hdec, hexec⟩⟩ := step_cases hstep
  · exact inv_raise hinv _
  · exact inv_raise hinv _
  · obtain ⟨hwf, -⟩ := encode_of_decodeWord hdec
    exact
      { mem_wf := exec_mem hexec ▸ hinv.mem_wf
        I_le := exec_I_le hinv.I_le hexec
        pc_le := exec_pc_le hwf hpc hinv.stack_le hexec
        stack_le := exec_stack_le hpc hinv.stack_le hexec }

end Sys2Proof.Machine
end

section
/-! # General registers read and written, and the flag table (spec/10_state.md R23, R35)

Two states that agree on everything but registers an instruction does not read are driven through it side by side
(`exec_writesAlike`): what it writes is then the same, and what it does not write is kept in both. -/

namespace Sys2Proof.Machine

/-! ## Two states that differ in registers only -/

/-- `t` and `t'` come from `s` and `s'` by the same write of the registers `ws` and of all other state. -/
structure WritesAlike (ws : List Nibble) (s s' t t' : State) : Prop where
  agree : AgreeButV t t'
  kept : ∀ r, r ∉ ws → t.readV r = s.readV r ∧ t'.readV r = s'.readV r
  written : ∀ r ∈ ws, t.readV r = t'.readV r

section
variable {s s' t t' : State}

theorem writesAlike_nil (h : AgreeButV t t') (hV : t.V = s.V) (hV' : t'.V = s'.V) : WritesAlike [] s s' t t' where
  agree := h
  kept r _ := by simp only [State.readV, hV, hV', and_self]
  written r hr := nomatch hr

theorem writesAlike_writeResult (x : Nibble) (b : Byte) (h : AgreeButV s s') :
    WritesAlike [x] s s' (writeResult x b s) (writeResult x b s') where
  agree := by rw [← h]; rfl
  kept r hr := by
    have hx : r ≠ x := by simpa using hr
    simp only [readV_writeResult, if_neg hx, and_self]
  written r hr := by
    have hx : r = x := by simpa using hr
    simp only [readV_writeResult, if_pos hx]

theorem writesAlike_writeResultFlag (x : Nibble) (b f : Byte) (h : AgreeButV s s') :
    WritesAlike [x, 0xF#4] s s' (writeResultFlag x b f s) (writeResultFlag x b f s') where
  agree := by rw [← h]; rfl
  kept r hr := by
    obtain ⟨hx, hF⟩ : r ≠ x ∧ r ≠ 0xF#4 := by simpa using hr
    simp only [readV_writeResultFlag, if_neg hx, if_neg hF, and_self]
  written r hr := by
    have hxF : r = x ∨ r = 0xF#4 := by simpa using hr
    simp only [readV_writeResultFlag]
    split_ifs with hF hx
    · rfl
    · rfl
    · exact absurd hxF (by simp [hx, hF])

theorem writesAlike_skipIf (c : Bool) (h : AgreeButV s s') : WritesAlike [] s s' (skipIf c s) (skipIf c s') := by
  rw [skipIf_eq, skipIf_eq]
  exact writesAlike_nil (by rw [← h]; rfl) rfl rfl

theorem ownFault_of_agreeButV (h : AgreeButV s s') (i : Instr) : ownFault i s' = ownFault i s := by
  rw [← h]
  rfl

/-- A DRW that completes, from the coordinates it reads: the pixels are the same, and the flag with them. -/
theorem exec_drw_writesAlike {x y n : Nibble} (h : AgreeButV s s') (hx : s.readV x = s'.readV x)
    (hy : s.readV y = s'.readV y) (hle : n.toNat = 0 ∨ s.I.toNat + n.toNat ≤ 4096) :
    ∃ t t', exec (.drw x y n) s = .next t ∧ exec (.drw x y n) s' = .next t' ∧ WritesAlike [0xF#4] s s' t t' := by
  have hI : s'.I = s.I := by rw [← h]
  have hFB : s'.FB = s.FB := by rw [← h]
  have hmem : s'.mem = s.mem := by rw [← h]
  have hsprite : s'.sprite x y n = s.sprite x y n := by simp only [State.sprite, hI, hmem, hx, hy]
  obtain ⟨t, hexec, hframe, hpixel, hV⟩ := exec_drw_of_le x y n hle
  obtain ⟨t', hexec', hframe', hpixel', hV'⟩ := exec_drw_of_le x y n (s := s') (by rwa [hI])
  rw [hsprite, hFB] at hpixel' hV'
  have hdrawn : t.FB = t'.FB := Framebuffer.ext_pixel fun px py => (hpixel px py).trans (hpixel' px py).symm
  refine ⟨t, t', hexec, hexec', ?_, fun r hr => ?_, fun r hr => ?_⟩
  · rw [AgreeButV, hframe', hframe, hdrawn, ← h]
  · have hF : r ≠ 0xF#4 := by simpa using hr
    exact ⟨(hV r).trans (if_neg hF), (hV' r).trans (if_neg hF)⟩
  · have hF : r = 0xF#4 := by simpa using hr
    rw [hV r, hV' r, if_pos hF, if_pos hF]

/-- An instruction that completes writes the same from two states that agree on what it reads. -/
theorem exec_writesAlike {i : Instr} (hwf : i.wellFormed = true) (h : AgreeButV s s')
    (hread : ∀ r ∈ regsRead i, s.readV r = s'.readV r) (hnone : ownFault i s = none) :
    ∃ t t', exec i s = .next t ∧ exec i s' = .next t' ∧ WritesAlike (regsWritten i) s s' t t' := by
  obtain ⟨W, rfl⟩ : ∃ W, s' = { s with V := W } := ⟨s'.V, h.symm⟩
  cases i with
  | halt => exact ⟨_, _, exec_halt s, exec_halt _, writesAlike_nil rfl rfl rfl⟩
  | cls => exact ⟨_, _, exec_cls s, exec_cls _, writesAlike_nil rfl rfl rfl⟩
  | ldI nnn => exact ⟨_, _, exec_ldI nnn s, exec_ldI nnn _, writesAlike_nil rfl rfl rfl⟩
  | jp nnn => exact ⟨_, _, exec_jp nnn s, exec_jp nnn _, writesAlike_nil rfl rfl rfl⟩
  | call nnn =>
    have hlt := sp_lt_of_ownFault_none hnone
    exact ⟨_, _, exec_call_of_lt nnn hlt, exec_call_of_lt nnn (s := { s with V := W }) hlt, writesAlike_nil rfl rfl rfl⟩
  | ret =>
    obtain ⟨k, hk⟩ := sp_succ_of_ownFault_none hnone
    exact ⟨_, _, exec_ret_of_succ hk, exec_ret_of_succ (s := { s with V := W }) hk, writesAlike_nil rfl rfl rfl⟩
  | jpVx x nnn =>
    have hx : x = nnn.extractLsb' 8 4 := beq_iff_eq.mp hwf
    have hVx := hread x (by rw [hx]; exact List.mem_singleton_self _)
    exact ⟨_, _, exec_jpVx x nnn s, exec_jpVx x nnn _, writesAlike_nil (by rw [hVx]; rfl) rfl rfl⟩
  | seImm x kk | sneImm x kk =>
    have hVx := hread x (by simp [regsRead])
    exact ⟨_, _, rfl, rfl, by rw [hVx]; exact writesAlike_skipIf _ rfl⟩
  | seReg x y | sneReg x y =>
    have hVx := hread x (by simp [regsRead])
    have hVy := hread y (by simp [regsRead])
    exact ⟨_, _, rfl, rfl, by rw [hVx, hVy]; exact writesAlike_skipIf _ rfl⟩
  | ldImm x kk => exact ⟨_, _, rfl, rfl, writesAlike_writeResult x kk rfl⟩
  | rnd x kk =>
    obtain ⟨hagree, hkept, hwritten⟩ := writesAlike_writeResult (s := s.setRandPos (s.randPos + 1))
      (s' := { s.setRandPos (s.randPos + 1) with V := W }) x (Config.randByte s.randPos &&& kk) rfl
    exact ⟨_, _, exec_rnd x kk s, exec_rnd x kk _, hagree, hkept, hwritten⟩
  | addImm x kk =>
    have hVx := hread x (by simp [regsRead])
    exact ⟨_, _, rfl, rfl, by rw [hVx]; exact writesAlike_writeResult x _ rfl⟩
  | ldReg x y =>
    have hVy := hread y (by simp [regsRead])
    exact ⟨_, _, rfl, rfl, by rw [hVy]; exact writesAlike_writeResult x _ rfl⟩
  | orReg x y | andReg x y | xorReg x y =>
    have hVx := hread x (by simp [regsRead])
    have hVy := hread y (by simp [regsRead])
    exact ⟨_, _, rfl, rfl, by rw [hVx, hVy]; exact writesAlike_writeResult x _ rfl⟩
  | addReg x y | sub x y | subn x y =>
    have hVx := hread x (by simp [regsRead])
    have hVy := hread y (by simp [regsRead])
    exact ⟨_, _, rfl, rfl, by rw [hVx, hVy]; exact writesAlike_writeResultFlag x _ _ rfl⟩
  | shr x y | shl x y =>
    have hVx := hread x (by simp [regsRead])
    exact ⟨_, _, rfl, rfl, by rw [hVx]; exact writesAlike_writeResultFlag x _ _ rfl⟩
  | drw x y n =>
    have hle := sprite_le_of_ownFault_none hnone
    exact exec_drw_writesAlike rfl (hread x (by simp [regsRead])) (hread y (by simp [regsRead])) hle

end

/-- A register that is not in the instruction's list of written ones is kept (R23). -/
theorem exec_readV_of_not_written {i : Instr} {s t : State} (hwf : i.wellFormed = true) (h : exec i s = .next t)
    {r : Nibble} (hr : r ∉ regsWritten i) : t.readV r = s.readV r := by
  obtain ⟨q, -, rfl⟩ | ⟨hnone, -⟩ := exec_inversion h
  · exact readV_raise s q r
  · obtain ⟨u, _, hexec, -, halike⟩ := exec_writesAlike hwf (show AgreeButV s s from rfl) (fun _ _ => rfl) hnone
    cases h.symm.trans hexec
    exact (halike.kept r hr).1

/-- Settles O42: a fault is the same fault in both states, and a completed instruction writes alike. -/
theorem registersReadAndWritten : Obligations.RegistersReadAndWritten := by
  intro i s s' t hwf _ hagree hread h
  obtain ⟨q, hown, rfl⟩ | ⟨hnone, -⟩ := exec_inversion h
  · have hown' : ownFault i s' = some q := (ownFault_of_agreeButV hagree i).trans hown
    have hkept (r : Nibble) : (raise q s).readV r = s.readV r ∧ (raise q s').readV r = s'.readV r := ⟨rfl, rfl⟩
    exact ⟨_, exec_of_ownFault hown', by rw [← hagree]; rfl, fun r _ => hkept r, .inr ⟨⟨q, rfl⟩, hkept⟩⟩
  · obtain ⟨u, t', hexec, hexec', halike⟩ := exec_writesAlike hwf hagree hread hnone
    cases h.symm.trans hexec
    exact ⟨t', hexec', halike.agree, halike.kept, .inl halike.written⟩

/-! ## The flag table -/

/-- What VF holds after an instruction that answers `writeResultFlag`, x being F or not (decision D6). -/
theorem exec_flag_of_iff {i : Instr} {x : Nibble} {b : Byte} {c : Bool} {p : Prop} [Decidable p] {s t : State}
    (h : exec i s = .next t) (heq : exec i s = .next (writeResultFlag x b (flagByte c) s)) (hc : c = true ↔ p) :
    t.readV 0xF#4 = if p then 1#8 else 0#8 := by
  cases h.symm.trans heq
  rw [readV_writeResultFlag, if_pos rfl, flagByte_of_iff hc]

/-- VF after a completed DRW: a pixel went off exactly where it was on under a set sprite bit (R35). -/
theorem exec_drw_flag {x y n : Nibble} {s t : State} (h : exec (.drw x y n) s = .next t)
    (hle : n.toNat = 0 ∨ s.I.toNat + n.toNat ≤ 4096) :
    t.readV 0xF#4 = if ∃ px py, s.FB.pixel px py = true ∧ t.FB.pixel px py = false then 1#8 else 0#8 := by
  obtain ⟨u, hexec, -, hpixel, hV⟩ := exec_drw_of_le x y n hle
  cases h.symm.trans hexec
  have hoff (px : Fin 64) (py : Fin 32) : (s.sprite x y n px py = true ∧ s.FB.pixel px py = true) ↔
      (s.FB.pixel px py = true ∧ t.FB.pixel px py = false) := by
    rw [hpixel]
    cases s.FB.pixel px py <;> cases s.sprite x y n px py <;> decide
  rw [hV, if_pos rfl]
  simp only [hoff]

/-- Settles O40. -/
theorem flagTable : Obligations.FlagTable := by
  refine ⟨readV_construct [] 0xF#4, fun s t x y n kk nnn =>
    ⟨fun h => exec_flag_of_iff h (exec_addReg x y s) decide_eq_true_iff,
      fun h => exec_flag_of_iff h (exec_sub x y s) decide_eq_true_iff,
      fun h => exec_flag_of_iff h (exec_shr x y s) Iff.rfl,
      fun h => exec_flag_of_iff h (exec_subn x y s) decide_eq_true_iff,
      fun h => exec_flag_of_iff h (exec_shl x y s) Iff.rfl,
      exec_drw_flag, fun i hi h hx => ?_, fun h => exec_readV_of_not_written rfl h (by simp [regsWritten])⟩⟩
  have hF : 0xF#4 ∉ [x] := by simpa using Ne.symm hx
  obtain rfl | rfl | rfl | rfl | rfl | rfl := hi <;> exact exec_readV_of_not_written rfl h hF

end Sys2Proof.Machine
end

section
/-! # Stale stack entries (spec/10_state.md R37)

States that differ in stale entries only differ by their stack vector. An instruction other than CALL and RET does not
look at that vector (`exec_setStack`); RET reads a pending entry, and CALL writes one. -/

namespace Sys2Proof.Machine

section
variable {s s' t : State} {i : Instr}

/-- The second state is the first with another stack vector. -/
theorem eq_setStack_of_agreeButStale (h : AgreeButStale s s') : s' = s.setStack s'.stack s.sp := by
  obtain ⟨hV, hI, hpc, hsp, hmem, hFB, hstatus, hrand, -⟩ := h
  cases s
  cases s'
  simp_all [State.setStack]

theorem agreeButStale_setStack {st : Vector Word 16}
    (h : ∀ k : Fin 16, k.val < s.sp.val → s.stack[k.val] = st[k.val]) : AgreeButStale s (s.setStack st s.sp) :=
  ⟨rfl, rfl, rfl, rfl, rfl, rfl, rfl, rfl, h⟩

theorem agreeButStale_raise (h : AgreeButStale s s') (r : FaultReason) : AgreeButStale (raise r s) (raise r s') :=
  ⟨h.V, h.I, h.pc, h.sp, h.mem, h.FB, rfl, h.randPos, h.pending⟩

theorem ownFault_of_agreeButStale (h : AgreeButStale s s') (i : Instr) : ownFault i s' = ownFault i s := by
  rw [eq_setStack_of_agreeButStale h]
  rfl

theorem opAt_of_agreeButStale (h : AgreeButStale s s') : opAt s' = opAt s := by
  rw [eq_setStack_of_agreeButStale h]
  rfl

theorem skipIf_setStack (c : Bool) (s : State) (st : Vector Word 16) :
    skipIf c (s.setStack st s.sp) = (skipIf c s).setStack st s.sp := by
  rw [skipIf_eq, skipIf_eq]
  rfl

/-- DRW looks at no stack entry. -/
theorem exec_drw_setStack {x y n : Nibble} (st : Vector Word 16) (h : exec (.drw x y n) s = .next t) :
    exec (.drw x y n) (s.setStack st s.sp) = .next (t.setStack st s.sp) := by
  simp only [exec, execDrw] at h ⊢
  simp only [setStack_mem, setStack_I]
  split at h
  next => cases h; rfl
  next => cases h; rfl

/-- An instruction other than CALL and RET answers the same from another stack vector, which it hands on. -/
theorem exec_setStack (hcall : ∀ nnn, i ≠ .call nnn) (hret : i ≠ .ret) (st : Vector Word 16)
    (h : exec i s = .next t) : exec i (s.setStack st s.sp) = .next (t.setStack st s.sp) := by
  cases i with
  | call nnn => exact absurd rfl (hcall nnn)
  | ret => exact absurd rfl hret
  | drw x y n => exact exec_drw_setStack st h
  | seImm | sneImm | seReg | sneReg =>
    cases h
    exact congrArg Host.Outcome.next (skipIf_setStack _ s st)
  | _ => cases h; rfl

/-- CALL writes the same entry at the same index in both states, so one more entry is pending in both. -/
theorem exec_call_agreeButStale (nnn : Addr12) (h : AgreeButStale s s') (hlt : s.sp.val < 16) :
    ∃ t t', exec (.call nnn) s = .next t ∧ exec (.call nnn) s' = .next t' ∧ AgreeButStale t t' := by
  have hpending := h.pending
  rw [eq_setStack_of_agreeButStale h]
  refine ⟨_, _, exec_call_of_lt nnn hlt, exec_call_of_lt nnn (s := s.setStack s'.stack s.sp) hlt,
    rfl, rfl, rfl, rfl, rfl, rfl, rfl, rfl, fun k hk => ?_⟩
  simp only [setStack_stack, setStack_sp, setStack_pc, Vector.getElem_set]
  split
  next => rfl
  next hne =>
    have hk' : k.val < s.sp.val + 1 := hk
    exact hpending k (by omega)

/-- RET reads the top pending entry, which is the same in both states. -/
theorem exec_ret_agreeButStale {k : Fin 16} (h : AgreeButStale s s') (hk : s.sp = k.succ) :
    ∃ t t', exec .ret s = .next t ∧ exec .ret s' = .next t' ∧ AgreeButStale t t' := by
  have hsp : s.sp.val = k.val + 1 := congrArg Fin.val hk
  have htop : s.stack[k.val] = s'.stack[k.val] := h.pending k (by omega)
  refine ⟨_, _, exec_ret_of_succ hk, exec_ret_of_succ (h.sp.symm.trans hk),
    h.V, h.I, htop, rfl, h.mem, h.FB, h.status, h.randPos, fun j hj => ?_⟩
  have hj' : j.val < k.val := hj
  exact h.pending j (by omega)

/-- An instruction that completes does not tell the two states apart. -/
theorem exec_agreeButStale (h : AgreeButStale s s') (hnone : ownFault i s = none) :
    ∃ t t', exec i s = .next t ∧ exec i s' = .next t' ∧ AgreeButStale t t' := by
  by_cases hcall : ∃ nnn, i = .call nnn
  · obtain ⟨nnn, rfl⟩ := hcall
    exact exec_call_agreeButStale nnn h (sp_lt_of_ownFault_none hnone)
  by_cases hret : i = .ret
  · subst hret
    obtain ⟨k, hk⟩ := sp_succ_of_ownFault_none hnone
    exact exec_ret_agreeButStale h hk
  obtain ⟨t, hexec, -⟩ := exec_completes hnone
  have hstack : t.stack = s.stack := (exec_stack hexec).resolve_right hcall
  have hsp : t.sp = s.sp := (exec_sp hexec).resolve_right fun hor => hor.elim hret hcall
  have hexec' : exec i s' = .next (t.setStack s'.stack s.sp) :=
    (congrArg (exec i) (eq_setStack_of_agreeButStale h)).trans
      (exec_setStack (not_exists.mp hcall) hret s'.stack hexec)
  refine ⟨t, _, hexec, hexec', ?_⟩
  rw [← hsp]
  exact agreeButStale_setStack (by simpa only [hstack, hsp] using h.pending)

end

/-- Settles O45: both states fetch the same word, and an instruction faults alike or completes alike. -/
theorem staleEntriesAreUnobservable : Obligations.StaleEntriesAreUnobservable := by
  intro s s' t h hstep
  obtain ⟨hrun, hcases⟩ := step_cases hstep
  have hrun' : s'.status = .running := h.status.symm.trans hrun
  have hop : opAt s' = opAt s := opAt_of_agreeButStale h
  obtain ⟨hpc, rfl⟩ | ⟨hpc, hdec, rfl⟩ | ⟨i, hpc, hdec, hexec⟩ := hcases
  · rw [h.pc] at hpc ⊢
    exact ⟨_, step_of_pc_gt hrun' hpc, agreeButStale_raise h _⟩
  · refine ⟨_, step_of_error hrun' (fetchDecode_of_illegal (h.pc ▸ hpc) (hop ▸ hdec)), ?_⟩
    rw [hop, h.pc]
    exact agreeButStale_raise h _
  · have hstep' : step s' = exec i s' := step_of_decodeWord hrun' (h.pc ▸ hpc) (hop ▸ hdec)
    rw [hstep']
    obtain ⟨r, hown, rfl⟩ | ⟨hnone, -⟩ := exec_inversion hexec
    · exact ⟨_, exec_of_ownFault ((ownFault_of_agreeButStale h i).trans hown), agreeButStale_raise h r⟩
    · obtain ⟨u, t', hu, ht', hagree⟩ := exec_agreeButStale h hnone
      cases hexec.symm.trans hu
      exact ⟨t', ht', hagree⟩

end Sys2Proof.Machine
end

section
/-! # Steps in a row and runs (spec/40_control_flow.md R103, R110, R112, spec/70_reset_and_hazards.md R235 to R238) -/

namespace Sys2Proof.Machine

/-! ## A taken skip -/

theorem skipIf_true (s : State) : skipIf true s = { s with pc := s.pc + 4#16 } := skipIf_eq s true

/-- The four skips differ in their condition only. -/
theorem exec_of_skipTaken {i : Instr} {s : State} (h : skipTaken i s = true) :
    exec i s = .next { s with pc := s.pc + 4#16 } := by
  rw [← skipIf_true, ← h]
  cases i with
  | seImm | sneImm | seReg | sneReg => rfl
  | _ => exact absurd h Bool.false_ne_true

/-- Settles O23: the word at the pc, and so the skip, is not made of the bytes that were changed. -/
theorem takenSkipIgnoresTheNextWord : Obligations.TakenSkipIgnoresTheNextWord := by
  intro s i m hrun hpc hdec htaken hsame
  have hop : opAt { s with mem := m } = opAt s :=
    opAt_congr rfl (hsame _ (by omega) (by omega)) (hsame _ (by omega) (by omega))
  refine ⟨?_, fun hlast => ?_⟩
  · rw [step_of_decodeWord (s := { s with mem := m }) hrun hpc (hop ▸ hdec)]
    exact exec_of_skipTaken htaken
  · have hnext : s.pc + 4#16 = 0x1002#16 := by rw [hlast]; rfl
    rw [hnext]
    exact ⟨_, step_of_pc_gt hrun (show 4094 < (0x1002#16).toNat by decide), rfl⟩

/-! ## CALL and RET -/

/-- The word of a well-formed instruction at the pc is executed as that instruction. -/
theorem step_of_opAt_eq_encode {s : State} {i : Instr} (hrun : s.status = .running) (hpc : s.pc.toNat ≤ 4094)
    (hwf : i.wellFormed = true) (hop : opAt s = encode i) : step s = exec i s :=
  step_of_decodeWord hrun hpc ((congrArg decodeWord hop).trans (decodeWord_encode hwf))

theorem step_of_call {s : State} {nnn : Addr12} {k : Fin 16} (hrun : s.status = .running) (hpc : s.pc.toNat ≤ 4094)
    (hop : opAt s = encode (.call nnn)) (hsp : s.sp = k.castSucc) :
    step s = .next { s with stack := s.stack.set k.val (s.pc + 2#16), sp := k.succ, pc := 0#4 ++ nnn } :=
  (step_of_opAt_eq_encode hrun hpc rfl hop).trans (exec_call_of_castSucc nnn hsp)

theorem step_of_ret {s : State} {k : Fin 16} (hrun : s.status = .running) (hpc : s.pc.toNat ≤ 4094)
    (hop : opAt s = encode .ret) (hsp : s.sp = k.succ) :
    step s = .next { s with sp := k.castSucc, pc := s.stack[k.val] } :=
  (step_of_opAt_eq_encode hrun hpc rfl hop).trans (exec_ret_of_succ hsp)

/-- Settles O24: RET pops the entry that CALL has just pushed, and leaves it in place. -/
theorem callThenReturnRestores : Obligations.CallThenReturnRestores := by
  intro s nnn k hrun hpc hsp hcall hnnn hret
  refine ⟨_, step_of_call hrun hpc hcall hsp, ?_⟩
  have hpc' : (0#4 ++ nnn).toNat ≤ 4094 := by rwa [toNat_zero_append]
  refine (step_of_ret (s := { s with stack := s.stack.set k.val (s.pc + 2#16), sp := k.succ, pc := 0#4 ++ nnn })
    (k := k) hrun hpc' hret rfl).trans ?_
  simp only [Vector.getElem_set_self, hsp]

/-! ## Runs -/

theorem afterStep_of_next {s t : State} (h : step s = .next t) : afterStep s = t := by
  simp only [afterStep, h]

theorem run_succ_of_running {s t : State} (hrun : s.status = .running) (h : step s = .next t) (fuel : Nat) :
    run (fuel + 1) s = run fuel t := by
  simp only [run, hrun, afterStep_of_next h]

theorem run_of_terminal {s : State} (h : s.status ≠ .running) (fuel : Nat) : run fuel s = s := by
  cases fuel with
  | zero => rfl
  | succ fuel =>
    rw [run]
    split
    next hrun => exact absurd hrun h
    next => rfl
    next => rfl

/-- A step in front of a run. -/
theorem reaches_of_step {s t u : State} (h : step s = .next t) (hreach : Reaches t u) : Reaches s u := by
  induction hreach with
  | refl => exact .step .refl h
  | step _ hstep ih => exact .step ih hstep

theorem reaches_run (fuel : Nat) (s : State) : Reaches s (run fuel s) := by
  induction fuel generalizing s with
  | zero => exact .refl
  | succ fuel ih =>
    by_cases hrun : s.status = .running
    · obtain ⟨t, hstep⟩ := step_exists_next hrun
      rw [run_succ_of_running hrun hstep]
      exact reaches_of_step hstep (ih t)
    · rw [run_of_terminal hrun]
      exact .refl

/-- A budget spent in two parts. -/
theorem run_add (fuel k : Nat) (s : State) : run (fuel + k) s = run k (run fuel s) := by
  induction fuel generalizing s with
  | zero => rw [Nat.zero_add, run]
  | succ fuel ih =>
    rw [Nat.add_right_comm]
    by_cases hrun : s.status = .running
    · obtain ⟨t, hstep⟩ := step_exists_next hrun
      rw [run_succ_of_running hrun hstep, run_succ_of_running hrun hstep, ih]
    · simp only [run_of_terminal hrun]

/-- Settles O53: more budget is spent from the state the run has come to. -/
theorem runStopsAtTheFirstTerminalState : Obligations.RunStopsAtTheFirstTerminalState :=
  fun fuel s => ⟨fun _ hrun hstep => run_succ_of_running hrun hstep fuel, rfl, reaches_run fuel s,
    fun hend k => (run_add fuel k s).trans (run_of_terminal hend k), fun hend => run_of_terminal hend fuel⟩

/-- A Running state that steps to itself is what every run from it answers. -/
theorem run_of_step_self {s : State} (hrun : s.status = .running) (h : step s = .next s) (fuel : Nat) :
    run fuel s = s := by
  induction fuel with
  | zero => rfl
  | succ fuel ih => rw [run_succ_of_running hrun h, ih]

/-- Settles O54: the jump writes the pc that the state has. -/
theorem jumpToItselfNeverEnds : Obligations.JumpToItselfNeverEnds := by
  intro s nnn hrun hpc hnnn hop
  have hle : s.pc.toNat ≤ 4094 := by rwa [hpc, toNat_zero_append]
  have hself : step s = .next s := by
    rw [step_of_opAt_eq_encode (i := .jp nnn) hrun hle rfl hop, exec_jp, ← hpc]
  exact ⟨hself, run_of_step_self hrun hself⟩

end Sys2Proof.Machine
end
